-- ==== Sys2Proof/Word.lean ====
section
/-! DEFINITION. Word.lean: the word types of the machine (spec/00_scope.md R6, R8, R9) and nothing else. All values are
unsigned (R8). -/

namespace Sys2Proof

/-- One byte: the width of V0 to VF, DT, ST and of a memory cell (R6: REG_W, TIMER_W). -/
abbrev Byte := BitVec 8

/-- Sixteen bits: the width of I, PC, a stack entry and an instruction word (R6: I_W, PC_W, STACK_W, INSTR_W). -/
abbrev Word := BitVec 16

/-- The address immediate `nnn` (R92). -/
abbrev Addr12 := BitVec 12

/-- The nibble immediate `n` (R92). -/
abbrev Nibble := BitVec 4

/-- A general register number, 0 to 15 (R21). -/
abbrev RegId := Fin 16

/-- A key index, 0 to 15 (R37, R226: an index outside the range cannot be written down). -/
abbrev KeyId := Fin 16

end Sys2Proof
end

