-- ==== Sys2Proof/Syntax.lean ====
section
/-! DEFINITION. Syntax.lean: the 35 instructions of spec/30_encoding.md R96, one constructor per row of
spec/opcode_table.json, in the table's order. Register numbers are already `Fin 16` and immediates already fields of
their own width (R92, R93): the machine never sees a raw encoding. -/

namespace Sys2Proof

/-- The instruction set (R96). The letters are the table's: `x` and `y` are register numbers, `kk` a byte, `n` a nibble,
`nnn` an address. -/
inductive Instr where
  /-- `00E0` CLS -/
  | cls
  /-- `00EE` RET -/
  | ret
  /-- `0nnn` SYS addr, every family-0 word but `00E0` and `00EE` (R97) -/
  | sys (nnn : Addr12)
  /-- `1nnn` JP addr -/
  | jp (nnn : Addr12)
  /-- `2nnn` CALL addr -/
  | call (nnn : Addr12)
  /-- `3xkk` SE Vx, byte -/
  | seByte (x : RegId) (kk : Byte)
  /-- `4xkk` SNE Vx, byte -/
  | sneByte (x : RegId) (kk : Byte)
  /-- `5xy0` SE Vx, Vy -/
  | seReg (x y : RegId)
  /-- `6xkk` LD Vx, byte -/
  | ldByte (x : RegId) (kk : Byte)
  /-- `7xkk` ADD Vx, byte -/
  | addByte (x : RegId) (kk : Byte)
  /-- `8xy0` LD Vx, Vy -/
  | ldReg (x y : RegId)
  /-- `8xy1` OR Vx, Vy -/
  | orReg (x y : RegId)
  /-- `8xy2` AND Vx, Vy -/
  | andReg (x y : RegId)
  /-- `8xy3` XOR Vx, Vy -/
  | xorReg (x y : RegId)
  /-- `8xy4` ADD Vx, Vy -/
  | addReg (x y : RegId)
  /-- `8xy5` SUB Vx, Vy -/
  | subReg (x y : RegId)
  /-- `8xy6` SHR Vx {, Vy} -/
  | shrReg (x y : RegId)
  /-- `8xy7` SUBN Vx, Vy -/
  | subnReg (x y : RegId)
  /-- `8xyE` SHL Vx {, Vy} -/
  | shlReg (x y : RegId)
  /-- `9xy0` SNE Vx, Vy -/
  | sneReg (x y : RegId)
  /-- `Annn` LD I, addr -/
  | ldI (nnn : Addr12)
  /-- `Bnnn` JP V0, addr -/
  | jpV0 (nnn : Addr12)
  /-- `Cxkk` RND Vx, byte -/
  | rnd (x : RegId) (kk : Byte)
  /-- `Dxyn` DRW Vx, Vy, nibble -/
  | drw (x y : RegId) (n : Nibble)
  /-- `Ex9E` SKP Vx -/
  | skp (x : RegId)
  /-- `ExA1` SKNP Vx -/
  | sknp (x : RegId)
  /-- `Fx07` LD Vx, DT -/
  | ldVxDt (x : RegId)
  /-- `Fx0A` LD Vx, K -/
  | ldVxK (x : RegId)
  /-- `Fx15` LD DT, Vx -/
  | ldDtVx (x : RegId)
  /-- `Fx18` LD ST, Vx -/
  | ldStVx (x : RegId)
  /-- `Fx1E` ADD I, Vx -/
  | addI (x : RegId)
  /-- `Fx29` LD F, Vx -/
  | ldF (x : RegId)
  /-- `Fx33` LD B, Vx -/
  | ldB (x : RegId)
  /-- `Fx55` LD [I], Vx -/
  | ldMemVx (x : RegId)
  /-- `Fx65` LD Vx, [I] -/
  | ldVxMem (x : RegId)
  deriving DecidableEq, Repr

end Sys2Proof
end

