-- ==== Sys2Proof/Decode.lean ====
section
/-! DEFINITION. Decode.lean: the fields of an instruction word (spec/30_encoding.md R91, R92), the decoder, total on all
65536 words (R94, R95), the encoder written from the same table (R96), and the table itself as rows of mask and match. -/

namespace Sys2Proof

/-- Why the decoder refuses its input. -/
inductive DecodeError where
  /-- The word selects no row of R96 (R98). -/
  | unknownOpcode (w : Word)
  /-- Fewer than the two bytes of an instruction (R90). -/
  | truncated
  deriving DecidableEq, Repr

namespace Decode

/-- `op`, bits 15:12 (R92). -/
def op (w : Word) : BitVec 4 := w.extractLsb' 12 4

/-- `x`, bits 11:8, as a register number (R92). -/
def x (w : Word) : RegId := ⟨(w.extractLsb' 8 4).toNat, (w.extractLsb' 8 4).isLt⟩

/-- `y`, bits 7:4, as a register number (R92). -/
def y (w : Word) : RegId := ⟨(w.extractLsb' 4 4).toNat, (w.extractLsb' 4 4).isLt⟩

/-- `n`, bits 3:0 (R92). -/
def n (w : Word) : Nibble := w.extractLsb' 0 4

/-- `kk`, bits 7:0 (R92). -/
def kk (w : Word) : Byte := w.extractLsb' 0 8

/-- `nnn`, bits 11:0 (R92). -/
def nnn (w : Word) : Addr12 := w.extractLsb' 0 12

/-- Family 0: the key is the whole word (R94, R97). -/
def family0 (w : Word) : Instr :=
  if w = 0x00E0#16 then .cls else if w = 0x00EE#16 then .ret else .sys (nnn w)

/-- Family 8: the key is the low nibble (R94, 90_conflicts.md C1). -/
def family8 (w : Word) : Except DecodeError Instr :=
  match (n w).toNat with
  | 0x0 => .ok (.ldReg (x w) (y w))
  | 0x1 => .ok (.orReg (x w) (y w))
  | 0x2 => .ok (.andReg (x w) (y w))
  | 0x3 => .ok (.xorReg (x w) (y w))
  | 0x4 => .ok (.addReg (x w) (y w))
  | 0x5 => .ok (.subReg (x w) (y w))
  | 0x6 => .ok (.shrReg (x w) (y w))
  | 0x7 => .ok (.subnReg (x w) (y w))
  | 0xE => .ok (.shlReg (x w) (y w))
  | _ => .error (.unknownOpcode w)

/-- Family E: the key is the low byte (R94). -/
def familyE (w : Word) : Except DecodeError Instr :=
  if kk w = 0x9E#8 then .ok (.skp (x w))
  else if kk w = 0xA1#8 then .ok (.sknp (x w))
  else .error (.unknownOpcode w)

/-- Family F: the key is the low byte (R94). -/
def familyF (w : Word) : Except DecodeError Instr :=
  if kk w = 0x07#8 then .ok (.ldVxDt (x w))
  else if kk w = 0x0A#8 then .ok (.ldVxK (x w))
  else if kk w = 0x15#8 then .ok (.ldDtVx (x w))
  else if kk w = 0x18#8 then .ok (.ldStVx (x w))
  else if kk w = 0x1E#8 then .ok (.addI (x w))
  else if kk w = 0x29#8 then .ok (.ldF (x w))
  else if kk w = 0x33#8 then .ok (.ldB (x w))
  else if kk w = 0x55#8 then .ok (.ldMemVx (x w))
  else if kk w = 0x65#8 then .ok (.ldVxMem (x w))
  else .error (.unknownOpcode w)

end Decode

/-- The decoder (R95), total on all words, looking at the word only. -/
def decode (w : Word) : Except DecodeError Instr :=
  match (Decode.op w).toNat with
  | 0x0 => .ok (Decode.family0 w)
  | 0x1 => .ok (.jp (Decode.nnn w))
  | 0x2 => .ok (.call (Decode.nnn w))
  | 0x3 => .ok (.seByte (Decode.x w) (Decode.kk w))
  | 0x4 => .ok (.sneByte (Decode.x w) (Decode.kk w))
  | 0x5 => if Decode.n w = 0#4 then .ok (.seReg (Decode.x w) (Decode.y w)) else .error (.unknownOpcode w)
  | 0x6 => .ok (.ldByte (Decode.x w) (Decode.kk w))
  | 0x7 => .ok (.addByte (Decode.x w) (Decode.kk w))
  | 0x8 => Decode.family8 w
  | 0x9 => if Decode.n w = 0#4 then .ok (.sneReg (Decode.x w) (Decode.y w)) else .error (.unknownOpcode w)
  | 0xA => .ok (.ldI (Decode.nnn w))
  | 0xB => .ok (.jpV0 (Decode.nnn w))
  | 0xC => .ok (.rnd (Decode.x w) (Decode.kk w))
  | 0xD => .ok (.drw (Decode.x w) (Decode.y w) (Decode.n w))
  | 0xE => Decode.familyE w
  | _ => Decode.familyF w

/-- The two bytes of an instruction make its word, the byte at the lower address the more significant (R64, R65). -/
def wordOfBytes (hi lo : Byte) : Word := hi ++ lo

/-- Decoding from a stream of bytes: the instruction and what follows it. Every instruction is two bytes (R90). -/
def decodeBytes : List Byte → Except DecodeError (Instr × List Byte)
  | hi :: lo :: rest =>
    match decode (wordOfBytes hi lo) with
    | .ok i => .ok (i, rest)
    | .error e => .error e
  | _ => .error .truncated

namespace Encode

/-- A register number as the four bits of its field (R92). -/
def reg (i : RegId) : BitVec 4 := BitVec.ofNat 4 i.val

/-- Format NNN (R91). -/
def nnn (op : BitVec 4) (a : Addr12) : Word := op ++ a

/-- Format XKK, and format XSS with the sub-opcode byte in place of `kk` (R91). -/
def xkk (op : BitVec 4) (x : RegId) (kk : Byte) : Word := op ++ reg x ++ kk

/-- Format XYN (R91). -/
def xyn (op : BitVec 4) (x y : RegId) (n : BitVec 4) : Word := op ++ reg x ++ reg y ++ n

end Encode

/-- The word of an instruction (R91, R96). -/
def encode : Instr → Word
  | .cls => 0x00E0#16
  | .ret => 0x00EE#16
  | .sys a => Encode.nnn 0x0#4 a
  | .jp a => Encode.nnn 0x1#4 a
  | .call a => Encode.nnn 0x2#4 a
  | .seByte x kk => Encode.xkk 0x3#4 x kk
  | .sneByte x kk => Encode.xkk 0x4#4 x kk
  | .seReg x y => Encode.xyn 0x5#4 x y 0x0#4
  | .ldByte x kk => Encode.xkk 0x6#4 x kk
  | .addByte x kk => Encode.xkk 0x7#4 x kk
  | .ldReg x y => Encode.xyn 0x8#4 x y 0x0#4
  | .orReg x y => Encode.xyn 0x8#4 x y 0x1#4
  | .andReg x y => Encode.xyn 0x8#4 x y 0x2#4
  | .xorReg x y => Encode.xyn 0x8#4 x y 0x3#4
  | .addReg x y => Encode.xyn 0x8#4 x y 0x4#4
  | .subReg x y => Encode.xyn 0x8#4 x y 0x5#4
  | .shrReg x y => Encode.xyn 0x8#4 x y 0x6#4
  | .subnReg x y => Encode.xyn 0x8#4 x y 0x7#4
  | .shlReg x y => Encode.xyn 0x8#4 x y 0xE#4
  | .sneReg x y => Encode.xyn 0x9#4 x y 0x0#4
  | .ldI a => Encode.nnn 0xA#4 a
  | .jpV0 a => Encode.nnn 0xB#4 a
  | .rnd x kk => Encode.xkk 0xC#4 x kk
  | .drw x y n => Encode.xyn 0xD#4 x y n
  | .skp x => Encode.xkk 0xE#4 x 0x9E#8
  | .sknp x => Encode.xkk 0xE#4 x 0xA1#8
  | .ldVxDt x => Encode.xkk 0xF#4 x 0x07#8
  | .ldVxK x => Encode.xkk 0xF#4 x 0x0A#8
  | .ldDtVx x => Encode.xkk 0xF#4 x 0x15#8
  | .ldStVx x => Encode.xkk 0xF#4 x 0x18#8
  | .addI x => Encode.xkk 0xF#4 x 0x1E#8
  | .ldF x => Encode.xkk 0xF#4 x 0x29#8
  | .ldB x => Encode.xkk 0xF#4 x 0x33#8
  | .ldMemVx x => Encode.xkk 0xF#4 x 0x55#8
  | .ldVxMem x => Encode.xkk 0xF#4 x 0x65#8

/-- The two bytes of a word as they stand in memory, most significant first (R90). -/
def bytesOfWord (w : Word) : List Byte := [w.extractLsb' 8 8, w.extractLsb' 0 8]

/-- One row of the opcode map: a word `w` selects it when `w &&& mask = pattern` (R96). -/
structure OpcodeRow where
  mask : Word
  pattern : Word
  deriving DecidableEq, Repr

/-- The row of R96 an instruction belongs to: the table's mask and match. -/
def Instr.row : Instr → OpcodeRow
  | .cls => ⟨0xFFFF, 0x00E0⟩
  | .ret => ⟨0xFFFF, 0x00EE⟩
  | .sys _ => ⟨0xF000, 0x0000⟩
  | .jp _ => ⟨0xF000, 0x1000⟩
  | .call _ => ⟨0xF000, 0x2000⟩
  | .seByte _ _ => ⟨0xF000, 0x3000⟩
  | .sneByte _ _ => ⟨0xF000, 0x4000⟩
  | .seReg _ _ => ⟨0xF00F, 0x5000⟩
  | .ldByte _ _ => ⟨0xF000, 0x6000⟩
  | .addByte _ _ => ⟨0xF000, 0x7000⟩
  | .ldReg _ _ => ⟨0xF00F, 0x8000⟩
  | .orReg _ _ => ⟨0xF00F, 0x8001⟩
  | .andReg _ _ => ⟨0xF00F, 0x8002⟩
  | .xorReg _ _ => ⟨0xF00F, 0x8003⟩
  | .addReg _ _ => ⟨0xF00F, 0x8004⟩
  | .subReg _ _ => ⟨0xF00F, 0x8005⟩
  | .shrReg _ _ => ⟨0xF00F, 0x8006⟩
  | .subnReg _ _ => ⟨0xF00F, 0x8007⟩
  | .shlReg _ _ => ⟨0xF00F, 0x800E⟩
  | .sneReg _ _ => ⟨0xF00F, 0x9000⟩
  | .ldI _ => ⟨0xF000, 0xA000⟩
  | .jpV0 _ => ⟨0xF000, 0xB000⟩
  | .rnd _ _ => ⟨0xF000, 0xC000⟩
  | .drw _ _ _ => ⟨0xF000, 0xD000⟩
  | .skp _ => ⟨0xF0FF, 0xE09E⟩
  | .sknp _ => ⟨0xF0FF, 0xE0A1⟩
  | .ldVxDt _ => ⟨0xF0FF, 0xF007⟩
  | .ldVxK _ => ⟨0xF0FF, 0xF00A⟩
  | .ldDtVx _ => ⟨0xF0FF, 0xF015⟩
  | .ldStVx _ => ⟨0xF0FF, 0xF018⟩
  | .addI _ => ⟨0xF0FF, 0xF01E⟩
  | .ldF _ => ⟨0xF0FF, 0xF029⟩
  | .ldB _ => ⟨0xF0FF, 0xF033⟩
  | .ldMemVx _ => ⟨0xF0FF, 0xF055⟩
  | .ldVxMem _ => ⟨0xF0FF, 0xF065⟩

/-- One instruction of each row, in the order of R96. -/
def tableSamples : List Instr :=
  [.cls, .ret, .sys 0, .jp 0, .call 0, .seByte 0 0, .sneByte 0 0, .seReg 0 0, .ldByte 0 0, .addByte 0 0, .ldReg 0 0,
   .orReg 0 0, .andReg 0 0, .xorReg 0 0, .addReg 0 0, .subReg 0 0, .shrReg 0 0, .subnReg 0 0, .shlReg 0 0] ++
  [.sneReg 0 0, .ldI 0, .jpV0 0, .rnd 0 0, .drw 0 0 0, .skp 0, .sknp 0, .ldVxDt 0, .ldVxK 0, .ldDtVx 0, .ldStVx 0,
   .addI 0, .ldF 0, .ldB 0, .ldMemVx 0, .ldVxMem 0]

/-- The opcode map: the rows of mask and match in the order of R96. -/
def opcodeTable : List OpcodeRow := tableSamples.map Instr.row

/-- The first row a word selects, if any: "to be searched first match wins" (R96). -/
def firstRow (w : Word) : Option OpcodeRow :=
  opcodeTable.find? fun r => w &&& r.mask == r.pattern

/-- The instruction the decoder reads from the word `w` as spec/opcode_table.json numbers its bits: the word is laid out
in memory most significant byte first (R90) and its bytes are decoded. Bits at and above `nbits` are 0. -/
def decodeTableWord (nbits w : Nat) : Option Instr :=
  match decodeBytes (bytesOfWord (BitVec.ofNat 16 (w % 2 ^ nbits))) with
  | .ok (i, _) => some i
  | .error _ => none

end Sys2Proof
end

