-- ==== Sys2Proof/Config.lean ====
section
/-! DEFINITION. Config.lean: the fixed sizes (spec/00_scope.md R6), the shape of the parameters the source leaves to the
implementation (R7), and what the spec leaves OPEN, as constants with no body. The values the spec decides for the
parameters stand in Machine/Params.lean. -/

namespace Sys2Proof.Config

/-- MEM_SIZE (R6). -/
abbrev memSize : Nat := 4096

/-- ENTRY, the program load and entry address (R6, R43). -/
abbrev entry : Nat := 0x200

/-- ROM_MAX, the largest ROM image in bytes (R6, R262). -/
abbrev romMax : Nat := memSize - entry

/-- STACK_DEPTH (R6, R30). -/
abbrev stackDepth : Nat := 16

/-- NKEYS (R6, R37). -/
abbrev nKeys : Nat := 16

/-- FB_W, the framebuffer's width in pixels (R6, R35). -/
abbrev fbWidth : Nat := 64

/-- FB_H, the framebuffer's height in pixels (R6, R35). -/
abbrev fbHeight : Nat := 32

/-- GLYPHS times GLYPH_H: the bytes of the built-in font (R6, R34). -/
abbrev fontSize : Nat := 80

/-- GLYPH_H, the bytes of one glyph (R6, R34). -/
abbrev glyphHeight : Nat := 5

/-- TIMER_HZ, nominal: 60 timer ticks a second (R7, R246). No rule of the model depends on it. -/
abbrev timerHz : Nat := 60

/-- The two values of Q_SHIFT_SRC (R7, D1): which register SHR and SHL read. -/
inductive ShiftSource where
  | vx
  | vy
  deriving DecidableEq, Repr

/-- The two values of ODD_TARGET_POLICY (R7, D5): what a control transfer to an odd address does. -/
inductive OddTargetPolicy where
  | fatal
  | allow
  deriving DecidableEq, Repr

/-- The parameters of R7 that change what an instruction does. -/
structure Quirks where
  /-- Q_SHIFT_SRC -/
  shiftSrc : ShiftSource
  /-- Q_LOGIC_VF_RESET -/
  logicVfReset : Bool
  /-- Q_INC_I -/
  incI : Bool
  /-- Q_CLIP_RIGHT -/
  clipRight : Bool
  /-- ODD_TARGET_POLICY -/
  oddTarget : OddTargetPolicy
  /-- FONT_BASE -/
  fontBase : Nat
  deriving DecidableEq, Repr

/-- Q_LOGIC_VF_RESET, left OPEN by the spec (R7, D2: "the source itself forbids fixing it"). It has no body: every
statement holds for both values (assumption log 2). -/
opaque logicVfReset : Bool

/-- The byte the environment supplies to the k-th draw (R163, D24: "a model must not fix the byte"). It has no body, so
nothing can be proved of its value (assumption log 3). -/
opaque freeByte : Nat → Byte

/-- One less than IPT: IPT is an OPEN positive integer (R7, D26, assumption log 4). -/
opaque iptPred : Nat

/-- One less than FF_MULT: FF_MULT is an OPEN positive integer (R7, D26, assumption log 4). -/
opaque ffMultPred : Nat

/-- IPT, the instructions of one scheduler tick at base speed (R7, R240). -/
def ipt : Nat := iptPred + 1

/-- FF_MULT, the fast-forward multiplier on IPT (R7, R243). -/
def ffMult : Nat := ffMultPred + 1

end Sys2Proof.Config
end

