-- ==== Sys2Proof/Machine/Params.lean ====
section
/-! DEFINITION. Machine/Params.lean: the values the spec decides for this hardware's parameters (spec/00_scope.md R7,
spec/92_eei_decisions.md D1 to D7) and the font bytes (spec/10_state.md R34). -/

namespace Sys2Proof.Machine

/-- The parameters at this hardware's values (R7): D1 VY, D2 open, D3 true, D4 wrap, D5 fatal, D6 0x000. -/
def quirks : Config.Quirks where
  shiftSrc := .vy
  logicVfReset := Config.logicVfReset
  incI := true
  clipRight := false
  oddTarget := .fatal
  fontBase := 0x000

/-- FONT_DATA: the glyphs of the digits 0 to F, five rows each (R34, D7). -/
def fontData : List Byte :=
  [0xF0, 0x90, 0x90, 0x90, 0xF0] ++ [0x20, 0x60, 0x20, 0x20, 0x70] ++
  [0xF0, 0x10, 0xF0, 0x80, 0xF0] ++ [0xF0, 0x10, 0xF0, 0x10, 0xF0] ++
  [0x90, 0x90, 0xF0, 0x10, 0x10] ++ [0xF0, 0x80, 0xF0, 0x10, 0xF0] ++
  [0xF0, 0x80, 0xF0, 0x90, 0xF0] ++ [0xF0, 0x10, 0x20, 0x40, 0x40] ++
  [0xF0, 0x90, 0xF0, 0x90, 0xF0] ++ [0xF0, 0x90, 0xF0, 0x10, 0xF0] ++
  [0xF0, 0x90, 0xF0, 0x90, 0x90] ++ [0xE0, 0x90, 0xE0, 0x90, 0xE0] ++
  [0xF0, 0x80, 0x80, 0x80, 0xF0] ++ [0xE0, 0x90, 0x90, 0x90, 0xE0] ++
  [0xF0, 0x80, 0xF0, 0x80, 0xF0] ++ [0xF0, 0x80, 0xF0, 0x80, 0x80]

end Sys2Proof.Machine
end

