-- ==== Sys2Proof/Machine/State.lean ====
section
/-! DEFINITION. Machine/State.lean: everything the spec gives the machine (spec/10_state.md R20) as plain data, the
reasons a step can stop, and the state after reset (R43). -/

namespace Sys2Proof.Machine

/-- The seven Fatal reasons (spec/60_exceptions.md R222, D16). -/
inductive FatalReason where
  | unknownOpcode
  | stackOverflow
  | stackUnderflow
  | fetchOutOfBounds
  | memOutOfBounds
  | misalignedTarget
  | badKeyIndex
  deriving DecidableEq, Repr

/-- A raised Fatal: its reason with the info value of R222 beside PC0. The address is an unbounded natural number, as
R62 computes it. -/
inductive Fatal where
  | unknownOpcode (w : Word)
  | stackOverflow
  | stackUnderflow
  | fetchOutOfBounds
  | memOutOfBounds (addr : Nat)
  | misalignedTarget (target : Word)
  | badKeyIndex (k : Byte)
  deriving DecidableEq, Repr

/-- The output events (R236, R46). -/
inductive Output where
  /-- Redraw: the 256 packed framebuffer bytes after the instruction (R193). -/
  | redraw (packed : List Byte)
  /-- Tone: the value written to ST; the duration is that value over 60 seconds (R208, D36). -/
  | tone (v : Byte)
  /-- Shutdown: the Fatal raised, with its info, and PC0 (R221, R222). -/
  | shutdown (f : Fatal) (pc0 : Word)
  deriving DecidableEq, Repr

/-- The steps of the machine (R230). -/
inductive Move where
  | instruction
  | timerTick
  | keyPress (k : KeyId)
  | keyRelease (k : KeyId)
  | reset (rom : List Byte)
  deriving DecidableEq, Repr

/-- The outcome of executing one instruction (spec/00_scope.md R11). -/
inductive InstrOutcome where
  | advance
  | skipOne
  | jumpTaken (target : Word)
  | enterKeyWait (x : RegId)
  | requestRedraw
  | fatal (f : Fatal)
  deriving DecidableEq, Repr

/-- The bytes of MEM that differ from the reset contents, as (address, byte) pairs in canonical form (Machine/Ops.lean,
`Memory.wf`). What an unlisted address reads as is `Memory.initial`. -/
abbrev Memory := List Host.Cell

/-- FB: 32 rows of 64 pixels (R35). Row r is a 64-bit word whose most significant bit is column 0, so that its eight
bytes, most significant first, are the packed bytes of R36 (assumption log 8). -/
abbrev Framebuffer := Vector (BitVec 64) Config.fbHeight

/-- The state of the core (R20) and three fields of the model's own. -/
structure State where
  /-- V: the general registers V0 to VF (R21). -/
  regs : Vector Byte 16
  /-- I: the address register (R23). -/
  i : Word
  /-- PC: the program counter (R24). -/
  pc : Word
  /-- DT: the delay timer (R28). -/
  dt : Byte
  /-- ST: the sound timer (R29). -/
  st : Byte
  /-- STACK: the return addresses, oldest first; SP is its length (R30). -/
  stack : List Word
  /-- MEM: the one memory (R33). -/
  mem : Memory
  /-- FB: the framebuffer (R35). -/
  fb : Framebuffer
  /-- KEYS: the pressed state of each key (R37). -/
  keys : Vector Bool Config.nKeys
  /-- LAST_KEY: the key of the most recent press that was not dropped (R38). -/
  lastKey : Option KeyId
  /-- WAIT: the key-wait latch (R40). -/
  wait : Option RegId
  /-- HALT: the Fatal reason the machine has stopped with (R41). -/
  halt : Option FatalReason
  /-- MODEL'S OWN: how many random bytes have been drawn; the next one is `Config.freeByte draws` (assumption log 3). -/
  draws : Nat
  /-- MODEL'S OWN: the output event the last step emitted, if any (R236; assumption log 6). -/
  emitted : Option Output
  /-- MODEL'S OWN: the steps the environment has lined up, the next first; with none lined up the next step is an
  instruction step (R230, R245; assumption log 5). -/
  agenda : List Move
  deriving DecidableEq, Repr

/-- Why a step stops the run. -/
inductive Fault where
  /-- Raised by an instruction step of a machine with HALT set: "a model should treat a state with HALT set as a fault
  state" (R224). Safe: the hardware does nothing there either. -/
  | halted (r : FatalReason)
  /-- Raised by a reset with a ROM of more than 3584 bytes: "the machine then never starts" (R227, R262). Safe: no state
  is built there either. -/
  | oversizedRom
  deriving DecidableEq, Repr

/-- Why the model gives a step no meaning. -/
inductive Refusal where
  /-- Raised by an arm of `exec` whose instruction is not modelled yet; no arm is. Safe: it only stops the run. -/
  | notModelled (mnemonic : String)
  deriving DecidableEq, Repr

/-- The machine right after reset with an empty ROM (R43, R260): the spec's own value in every field it names. The
program reaches the machine through a reset move or from outside (assumption log 7). The model's own fields start
empty (assumption logs 3, 5, 6). -/
def State.reset : State where
  regs := Vector.replicate 16 0#8
  i := 0#16
  pc := 0x200#16
  dt := 0#8
  st := 0#8
  stack := []
  mem := []
  fb := Vector.replicate Config.fbHeight 0#64
  keys := Vector.replicate Config.nKeys false
  lastKey := none
  wait := none
  halt := none
  draws := 0
  emitted := none
  agenda := []

end Sys2Proof.Machine
end

