-- ==== Sys2Proof/Machine/Ops.lean ====
section
/-! DEFINITION. Machine/Ops.lean: the named operations over registers, memory, stack and framebuffer, the application of
an instruction's outcome (spec/10_state.md R26) with Fatal entry among them (spec/60_exceptions.md R221). There is no
return from Fatal (R224): only reset leaves it (Machine/Events.lean). -/

namespace Sys2Proof.Machine

/-! ### General registers (R21) -/

/-- `VF` = `V[15]` (R10, R22). -/
abbrev vf : RegId := 15

/-- `V[r]` (R10). -/
def State.getV (s : State) (r : RegId) : Byte := s.regs[r.val]

/-- `V[r] <- v` (R10). -/
def State.setV (s : State) (r : RegId) (v : Byte) : State := { s with regs := s.regs.set r.val v }

/-! ### Memory (R33, R62 to R64, R68) -/

/-- What MEM holds right after reset with an empty ROM, and so what an unlisted address reads as: the font, and 0
elsewhere (R43, D9). -/
def Memory.initial (a : Nat) : Byte :=
  if quirks.fontBase ≤ a ∧ a < quirks.fontBase + Config.fontSize then fontData.getD (a - quirks.fontBase) 0 else 0

/-- `MEM[a]`. -/
def Memory.read : Memory → Nat → Byte
  | [], a => Memory.initial a
  | (k, v) :: m, a => if a = k then v else Memory.read m a

/-- `MEM[a] <- v`, keeping the canonical form. -/
def Memory.write : Memory → Nat → Byte → Memory
  | [], a, v => if v = Memory.initial a then [] else [(a, v)]
  | (k, b) :: m, a, v =>
    if a < k then if v = Memory.initial a then (k, b) :: m else (a, v) :: (k, b) :: m
    else if a = k then if v = Memory.initial a then m else (a, v) :: m
    else (k, b) :: Memory.write m a v

/-- The canonical form: addresses strictly rising, and no entry equal to what its address reads as when unlisted. -/
def Memory.wf : Memory → Bool
  | [] => true
  | (k, v) :: m => v != Memory.initial k && m.all (fun c => decide (k < c.1)) && Memory.wf m

/-- The `n` bytes at `a`, `a + 1`, ..., ascending (R60, R68). -/
def Memory.readBytes (m : Memory) (a : Nat) : Nat → List Byte
  | 0 => []
  | n + 1 => Memory.read m a :: Memory.readBytes m (a + 1) n

/-- The bytes of a list to `a`, `a + 1`, ..., ascending (R60, R68). -/
def Memory.writeBytes (m : Memory) (a : Nat) : List Byte → Memory
  | [] => m
  | v :: vs => Memory.writeBytes (Memory.write m a v) (a + 1) vs

/-- The Fatal of a data access of `n` bytes at `a`: the whole range is validated before the first access, and the info is
the highest address it would touch (R62, R63, R68). An access of no bytes is never out of bounds (R188). -/
def rangeFatal (a n : Nat) : Option Fatal :=
  if 0 < n ∧ Config.memSize ≤ a + n - 1 then some (.memOutOfBounds (a + n - 1)) else none

/-- A validated read of `n` bytes at `a` (R68); with `n` = 1 it is `MemRead(addr, 1)` (R62). -/
def memReadRange (s : State) (a n : Nat) : Except Fatal (List Byte) :=
  match rangeFatal a n with
  | some f => .error f
  | none => .ok (s.mem.readBytes a n)

/-- A validated write of a list of bytes at `a` (R68); of one byte it is `MemWrite(addr, 1, v)` (R63). -/
def memWriteRange (s : State) (a : Nat) (vs : List Byte) : Except Fatal State :=
  match rangeFatal a vs.length with
  | some f => .error f
  | none => .ok { s with mem := s.mem.writeBytes a vs }

/-- The instruction fetch `MemRead(PC, 2)`, big-endian (R64): out of bounds when PC + 1 >= 4096. -/
def fetch (s : State) : Except Fatal Word :=
  if Config.memSize ≤ s.pc.toNat + 1 then .error .fetchOutOfBounds
  else .ok (wordOfBytes (s.mem.read s.pc.toNat) (s.mem.read (s.pc.toNat + 1)))

/-! ### The call stack (R30 to R32) -/

/-- `push(v)` (R31). -/
def push (s : State) (v : Word) : Except Fatal State :=
  if Config.stackDepth ≤ s.stack.length then .error .stackOverflow else .ok { s with stack := s.stack ++ [v] }

/-- `pop()` (R32): the newest entry, and the state without it. -/
def pop (s : State) : Except Fatal (Word × State) :=
  match s.stack.getLast? with
  | none => .error .stackUnderflow
  | some v => .ok (v, { s with stack := s.stack.dropLast })

/-! ### The framebuffer (R35, R36) -/

/-- `FB[r][c]` (R10, R35). -/
def pixel (fb : Framebuffer) (r : Fin 32) (c : Fin 64) : Bool := (fb[r.val]).getMsbD c.val

/-- `FB[r][c] <- FB[r][c] ^ 1` (R188). -/
def flipPixel (fb : Framebuffer) (r : Fin 32) (c : Fin 64) : Framebuffer :=
  fb.set r.val (fb[r.val] ^^^ BitVec.twoPow 64 (63 - c.val))

/-- Packed byte `k` of row `r`: the pixels of columns 8k to 8k + 7, bit 7 the leftmost (R36, D19). -/
def packedByte (fb : Framebuffer) (r : Fin 32) (k : Fin 8) : Byte := (fb[r.val]).extractLsb' (56 - 8 * k.val) 8

/-- The eight packed bytes of a row. -/
def packedRow (row : BitVec 64) : List Byte :=
  [row.extractLsb' 56 8, row.extractLsb' 48 8, row.extractLsb' 40 8, row.extractLsb' 32 8,
   row.extractLsb' 24 8, row.extractLsb' 16 8, row.extractLsb' 8 8, row.extractLsb' 0 8]

/-- The packed view of the framebuffer: 256 bytes, row-major (R36). -/
def packed (fb : Framebuffer) : List Byte := fb.toList.flatMap packedRow

/-! ### Outcomes (R26) -/

/-- The code of a Fatal reason (R222). -/
def FatalReason.code : FatalReason → Nat
  | .unknownOpcode => 1
  | .stackOverflow => 2
  | .stackUnderflow => 3
  | .fetchOutOfBounds => 4
  | .memOutOfBounds => 5
  | .misalignedTarget => 6
  | .badKeyIndex => 7

/-- The reason of a Fatal (R222). -/
def Fatal.reason : Fatal → FatalReason
  | .unknownOpcode _ => .unknownOpcode
  | .stackOverflow => .stackOverflow
  | .stackUnderflow => .stackUnderflow
  | .fetchOutOfBounds => .fetchOutOfBounds
  | .memOutOfBounds _ => .memOutOfBounds
  | .misalignedTarget _ => .misalignedTarget
  | .badKeyIndex _ => .badKeyIndex

/-- `emit Event` (R10, R236). -/
def emit (s : State) (e : Output) : State := { s with emitted := some e }

/-- Fatal entry, `raise Fatal(reason, info)` (R221): HALT takes the reason, Shutdown is emitted, nothing else changes. It
is applied to the state the instruction began in, so PC is still PC0. -/
def raiseFatal (s : State) (f : Fatal) : State := emit { s with halt := some f.reason } (.shutdown f s.pc)

/-- What an outcome does to PC and to the environment (R26). PC is still PC0 when it is applied (R24). -/
def applyOutcome (s : State) : InstrOutcome → State
  | .advance => { s with pc := s.pc + 2 }
  | .skipOne => { s with pc := s.pc + 4 }
  | .jumpTaken t => { s with pc := t }
  | .enterKeyWait x => { s with wait := some x }
  | .requestRedraw => emit { s with pc := s.pc + 2 } (.redraw (packed s.fb))
  | .fatal f => raiseFatal s f

/-- The end of every meaning: the state its effects left, with the outcome applied (R120). -/
def finish (s : State) (o : InstrOutcome) : Host.Outcome State Fault Refusal := .next (applyOutcome s o)

/-- The outcome of an instruction that validated its access (R68): the Fatal on the state it began in, or its effects. -/
def finishChecked {α : Type} (s : State) (r : Except Fatal α) (k : α → Host.Outcome State Fault Refusal) :
    Host.Outcome State Fault Refusal :=
  match r with
  | .error f => finish s (.fatal f)
  | .ok a => k a

/-- A skip: SkipOne when the condition holds, else Advance (R125). -/
def skipIf (s : State) (c : Bool) : Host.Outcome State Fault Refusal :=
  finish s (if c then .skipOne else .advance)

/-- A jump to `t`: JumpTaken, or Fatal when the policy forbids an odd target and `t` is odd (R25, R123, D5). -/
def targetFatal (p : Config.OddTargetPolicy) (t : Word) : Option Fatal :=
  if p = .fatal ∧ t.getLsbD 0 = true then some (.misalignedTarget t) else none

/-! ### The step's own fields (assumption logs 5 and 6) -/

/-- The next step of the machine: the first one lined up, else an instruction step (R230). -/
def nextMove (s : State) : Move := s.agenda.headD .instruction

/-- A step begins: nothing is emitted yet, and the step is off the agenda. -/
def beginStep (s : State) : State := { s with emitted := none, agenda := s.agenda.tail }

end Sys2Proof.Machine
end

