-- ==== Sys2Proof/Machine/Operands.lean ====
section
/-! DEFINITION. Machine/Operands.lean: the operand forms of the instructions (spec/30_encoding.md R93) and the values an
instruction computes from them before it writes anything. -/

namespace Sys2Proof.Machine

/-- An address immediate as a jump target or a value of I: zero-extended, an absolute address (R93). -/
def zextAddr (nnn : Addr12) : Word := nnn.setWidth 16

/-- A byte zero-extended to 16 bits (R129, R171). -/
def zextByte (v : Byte) : Word := v.setWidth 16

/-- The source operand of SHR and SHL (R152, R154). -/
def shiftOperand (src : Config.ShiftSource) (s : State) (x y : RegId) : Byte :=
  match src with
  | .vx => s.getV x
  | .vy => s.getV y

/-- The target of JP V0 (R129): always register 0. -/
def indexedTarget (s : State) (nnn : Addr12) : Word := zextAddr nnn + zextByte (s.getV 0)

/-- The address of the glyph of the low nibble of `v` (R172, D11). -/
def glyphAddress (base : Nat) (v : Byte) : Word := BitVec.ofNat 16 (base + Config.glyphHeight * (v &&& 0x0F).toNat)

/-- The decimal digits of a byte: hundreds, tens, units (R173). -/
def bcdDigits (v : Byte) : List Byte :=
  [BitVec.ofNat 8 (v.toNat / 100), BitVec.ofNat 8 (v.toNat / 10 % 10), BitVec.ofNat 8 (v.toNat % 10)]

/-- The registers V0 up to and including Vx, V0 first (R174). -/
def regBlock (s : State) (x : RegId) : List Byte := s.regs.toList.take (x.val + 1)

/-- V[k] <- the k-th byte of the list, from register number `k` up (R175). -/
def setRegBlock (s : State) (k : Nat) : List Byte → State
  | [] => s
  | v :: vs => setRegBlock (if h : k < 16 then s.setV ⟨k, h⟩ v else s) (k + 1) vs

/-- I after a block transfer: advanced past the last byte when Q_INC_I, else unchanged (R174, R175). -/
def indexAfterBlock (incI : Bool) (i : Word) (x : RegId) : Word :=
  if incI then BitVec.ofNat 16 (i.toNat + x.val + 1) else i

/-- A key index from a register: 0 to 15, else Fatal (R200, R201, D10). -/
def keyOperand (v : Byte) : Except Fatal KeyId :=
  if h : v.toNat < 16 then .ok ⟨v.toNat, h⟩ else .error (.badKeyIndex v)

/-- `KEYS[k]` (R10). -/
def State.key (s : State) (k : KeyId) : Bool := s.keys[k.val]

/-- `draw_byte()`: the next free byte, and the state that has consumed it (R163). -/
def drawByte (s : State) : Byte × State := (Config.freeByte s.draws, { s with draws := s.draws + 1 })

end Sys2Proof.Machine
end

