-- ==== Sys2Proof/Machine/Events.lean ====
section
/-! DEFINITION. Machine/Events.lean: the steps of the machine that are not instructions (spec/60_exceptions.md R230): the
timer tick (R231), the key press (R232, R233), the key release (R234) and reset (spec/70_reset_and_hazards.md R260). -/

namespace Sys2Proof.Machine

/-- A timer one tick on: it saturates at 0 (R231, R237). -/
def countDown (t : Byte) : Byte := if t = 0 then 0 else t - 1

/-- The timer tick: both timers, also during a key wait; not enabled once HALT is set (R231, R224). -/
def timerTick (s : State) : State :=
  if s.halt.isSome then s else { s with dt := countDown s.dt, st := countDown s.st }

/-- Key-wait resolution: the latch's register takes the key's index, the latch clears and PC moves past the LD Vx,K, in
one step (R233, D14). -/
def resolveWait (s : State) (k : KeyId) : State :=
  match s.wait with
  | none => s
  | some x => { s.setV x (BitVec.ofNat 8 k.val) with wait := none, pc := s.pc + 2 }

/-- The key press: dropped when the key is already pressed, and then it does not resolve a wait (R232, D15). -/
def keyPress (s : State) (k : KeyId) : State :=
  if s.halt.isSome || s.key k then s
  else resolveWait { s with keys := s.keys.set k.val true, lastKey := some k } k

/-- The key release (R234). -/
def keyRelease (s : State) (k : KeyId) : State :=
  if s.halt.isSome then s else { s with keys := s.keys.set k.val false }

/-- reset(ROM): the whole state from nothing with the image copied verbatim to 0x200 on, or no machine when the image is
larger than 3584 bytes (R260, R262, R227). -/
def boot (rom : List Byte) : Option State :=
  if Config.romMax < rom.length then none
  else some { State.reset with mem := State.reset.mem.writeBytes Config.entry rom }

/-- The reset step, enabled always (R230). The environment's own fields go on: what is lined up after the reset, and
the count of bytes drawn (assumption logs 3, 5). -/
def resetMove (s : State) (rom : List Byte) : Host.Outcome State Fault Refusal :=
  match boot rom with
  | none => .fault .oversizedRom
  | some t => .next { t with agenda := s.agenda, draws := s.draws }

end Sys2Proof.Machine
end

