-- ==== Sys2Proof/Machine/Flags.lean ====
section
/-! DEFINITION. Machine/Flags.lean: the flag computations of spec/41_alu.md R144. The one flag is VF (spec/10_state.md
R39). -/

namespace Sys2Proof.Machine

/-- A flag as the byte written to VF: 1 or 0 (R22). -/
def flagByte (c : Bool) : Byte := if c then 1 else 0

/-- The carry of ADD: the unsigned sum exceeds 255 (R150). -/
def carryFlag (a b : Byte) : Byte := flagByte (decide (255 < a.toNat + b.toNat))

/-- The no-borrow flag of `a - b`: 1 when `a >= b` (R151, R153). -/
def noBorrowFlag (a b : Byte) : Byte := flagByte (decide (b.toNat ≤ a.toNat))

/-- The bit SHR shifts out: bit 0 of the source (R152). -/
def shrFlag (v : Byte) : Byte := flagByte (v.getLsbD 0)

/-- The bit SHL shifts out: bit 7 of the source (R154). -/
def shlFlag (v : Byte) : Byte := flagByte (v.getLsbD 7)

/-- The collision flag of DRW (R188). -/
def collisionFlag (c : Bool) : Byte := flagByte c

/-- `(a + b) mod 256` (R142, R150). -/
def addBytes (a b : Byte) : Byte := BitVec.ofNat 8 (a.toNat + b.toNat)

/-- `trunc_8(a - b + 256)` (R142, R151). -/
def subBytes (a b : Byte) : Byte := BitVec.ofNat 8 (a.toNat + 256 - b.toNat)

/-- The result to V[x] first, the flag to VF second (R143, D32). -/
def writeResultFlag (s : State) (x : RegId) (r f : Byte) : State := (s.setV x r).setV vf f

/-- The result of OR, AND or XOR to V[x], and then 0 to VF when Q_LOGIC_VF_RESET; else VF keeps what it then holds
(R147). The choice is made inside the value written, so that every other register is read without knowing it. -/
def writeLogic (vfReset : Bool) (s : State) (x : RegId) (r : Byte) : State :=
  (s.setV x r).setV vf (if vfReset then 0 else (s.setV x r).getV vf)

end Sys2Proof.Machine
end

