-- ==== Sys2Proof/Machine/Alu.lean ====
section
/-! DEFINITION. Machine/Alu.lean: the register loads, arithmetic, logic, shifts and RND (spec/41_alu.md R140 to R160).
Every one of them has outcome Advance. -/

namespace Sys2Proof.Machine

/-- LD Vx, byte (R140). -/
def execLdByte (x : RegId) (kk : Byte) (s : State) : Host.Outcome State Fault Refusal :=
  finish (s.setV x kk) .advance

/-- ADD Vx, byte: no carry is written (R141, D23). -/
def execAddByte (x : RegId) (kk : Byte) (s : State) : Host.Outcome State Fault Refusal :=
  finish (s.setV x (addBytes (s.getV x) kk)) .advance

/-- LD Vx, Vy (R146). -/
def execLdReg (x y : RegId) (s : State) : Host.Outcome State Fault Refusal :=
  finish (s.setV x (s.getV y)) .advance

/-- OR Vx, Vy (R147). -/
def execOrReg (x y : RegId) (s : State) : Host.Outcome State Fault Refusal :=
  finish (writeLogic quirks.logicVfReset s x (s.getV x ||| s.getV y)) .advance

/-- AND Vx, Vy (R148). -/
def execAndReg (x y : RegId) (s : State) : Host.Outcome State Fault Refusal :=
  finish (writeLogic quirks.logicVfReset s x (s.getV x &&& s.getV y)) .advance

/-- XOR Vx, Vy (R149). -/
def execXorReg (x y : RegId) (s : State) : Host.Outcome State Fault Refusal :=
  finish (writeLogic quirks.logicVfReset s x (s.getV x ^^^ s.getV y)) .advance

/-- ADD Vx, Vy (R150). -/
def execAddReg (x y : RegId) (s : State) : Host.Outcome State Fault Refusal :=
  finish (writeResultFlag s x (addBytes (s.getV x) (s.getV y)) (carryFlag (s.getV x) (s.getV y))) .advance

/-- SUB Vx, Vy (R151). -/
def execSubReg (x y : RegId) (s : State) : Host.Outcome State Fault Refusal :=
  finish (writeResultFlag s x (subBytes (s.getV x) (s.getV y)) (noBorrowFlag (s.getV x) (s.getV y))) .advance

/-- SHR under either value of Q_SHIFT_SRC (R152). -/
def shrWith (src : Config.ShiftSource) (x y : RegId) (s : State) : Host.Outcome State Fault Refusal :=
  finish (writeResultFlag s x (shiftOperand src s x y >>> 1) (shrFlag (shiftOperand src s x y))) .advance

/-- SHR Vx {, Vy} (R152, D1). -/
def execShrReg (x y : RegId) (s : State) : Host.Outcome State Fault Refusal := shrWith quirks.shiftSrc x y s

/-- SUBN Vx, Vy (R153). -/
def execSubnReg (x y : RegId) (s : State) : Host.Outcome State Fault Refusal :=
  finish (writeResultFlag s x (subBytes (s.getV y) (s.getV x)) (noBorrowFlag (s.getV y) (s.getV x))) .advance

/-- SHL under either value of Q_SHIFT_SRC (R154). -/
def shlWith (src : Config.ShiftSource) (x y : RegId) (s : State) : Host.Outcome State Fault Refusal :=
  finish (writeResultFlag s x (shiftOperand src s x y <<< 1) (shlFlag (shiftOperand src s x y))) .advance

/-- SHL Vx {, Vy} (R154, D1). -/
def execShlReg (x y : RegId) (s : State) : Host.Outcome State Fault Refusal := shlWith quirks.shiftSrc x y s

/-- RND Vx, byte: the next free byte masked by `kk` (R160, R163). -/
def execRnd (x : RegId) (kk : Byte) (s : State) : Host.Outcome State Fault Refusal :=
  finish ((drawByte s).2.setV x ((drawByte s).1 &&& kk)) .advance

end Sys2Proof.Machine
end

