-- ==== Sys2Proof/Machine/ControlFlow.lean ====
section
/-! DEFINITION. Machine/ControlFlow.lean: SYS, RET, JP, CALL, SE, SNE, JP V0 (spec/40_control_flow.md R121 to R129). -/

namespace Sys2Proof.Machine

/-- SYS addr: a no-op (R121). -/
def execSys (_nnn : Addr12) (s : State) : Host.Outcome State Fault Refusal := finish s .advance

/-- RET: pops the stack into PC, or Fatal when it is empty (R122). -/
def execRet (s : State) : Host.Outcome State Fault Refusal :=
  finishChecked s (pop s) fun r => finish r.2 (.jumpTaken r.1)

/-- A jump to `t` from a state whose other effects are done in `k`: the target's alignment is checked first (R123,
R124, R129). -/
def jumpChecked (p : Config.OddTargetPolicy) (s : State) (t : Word) (k : Host.Outcome State Fault Refusal) :
    Host.Outcome State Fault Refusal :=
  match targetFatal p t with
  | some f => finish s (.fatal f)
  | none => k

/-- JP addr (R123). -/
def execJp (nnn : Addr12) (s : State) : Host.Outcome State Fault Refusal :=
  jumpChecked quirks.oddTarget s (zextAddr nnn) (finish s (.jumpTaken (zextAddr nnn)))

/-- CALL addr: alignment first, then the push of PC0 + 2 (R124, D21, D31). -/
def execCall (nnn : Addr12) (s : State) : Host.Outcome State Fault Refusal :=
  jumpChecked quirks.oddTarget s (zextAddr nnn)
    (finishChecked s (push s (s.pc + 2)) fun t => finish t (.jumpTaken (zextAddr nnn)))

/-- SE Vx, byte (R125). -/
def execSeByte (x : RegId) (kk : Byte) (s : State) : Host.Outcome State Fault Refusal :=
  skipIf s (s.getV x == kk)

/-- SNE Vx, byte (R126). -/
def execSneByte (x : RegId) (kk : Byte) (s : State) : Host.Outcome State Fault Refusal :=
  skipIf s (s.getV x != kk)

/-- SE Vx, Vy (R127). -/
def execSeReg (x y : RegId) (s : State) : Host.Outcome State Fault Refusal :=
  skipIf s (s.getV x == s.getV y)

/-- SNE Vx, Vy (R128). -/
def execSneReg (x y : RegId) (s : State) : Host.Outcome State Fault Refusal :=
  skipIf s (s.getV x != s.getV y)

/-- JP V0, addr: the target is not reduced modulo 4096 (R129, D22). -/
def execJpV0 (nnn : Addr12) (s : State) : Host.Outcome State Fault Refusal :=
  jumpChecked quirks.oddTarget s (indexedTarget s nnn) (finish s (.jumpTaken (indexedTarget s nnn)))

end Sys2Proof.Machine
end

