-- ==== Sys2Proof/Machine/Display.lean ====
section
/-! DEFINITION. Machine/Display.lean: the framebuffer XOR-plot engine, pixel by pixel, and its two instructions CLS and
DRW (spec/43_display.md R185 to R193). -/

namespace Sys2Proof.Machine

/-- What the plot carries along: the framebuffer and the collision flag (R188). -/
structure Plot where
  fb : Framebuffer
  collision : Bool
  deriving DecidableEq, Repr

/-- XOR one lit sprite pixel into the framebuffer; a lit pixel turned off is a collision (R188). -/
def plotPixel (r : Fin 32) (c : Fin 64) (p : Plot) : Plot where
  fb := flipPixel p.fb r c
  collision := p.collision || pixel p.fb r c

/-- The column of sprite pixel `j` of a row that starts at column `x0`: past column 63 it wraps, or is dropped when
clipping (R186, R192). -/
def spriteColumn (clip : Bool) (x0 : Fin 64) (j : Nat) : Option (Fin 64) :=
  if x0.val + j < 64 then some (Fin.ofNat 64 (x0.val + j))
  else if clip then none
  else some (Fin.ofNat 64 (x0.val + j - 64))

/-- Sprite pixel `j` of the row byte `b`: bit 7 - j, bit 7 the leftmost (R186, D18). -/
def plotBit (clip : Bool) (r : Fin 32) (x0 : Fin 64) (b : Byte) (p : Plot) (j : Nat) : Plot :=
  if b.getLsbD (7 - j) then
    match spriteColumn clip x0 j with
    | some c => plotPixel r c p
    | none => p
  else p

/-- One sprite row: its pixels 0 to 7 in order (R188). -/
def plotRow (clip : Bool) (r : Fin 32) (x0 : Fin 64) (b : Byte) (p : Plot) : Plot :=
  [0, 1, 2, 3, 4, 5, 6, 7].foldl (plotBit clip r x0 b) p

/-- The framebuffer row of sprite row `i`: rows always wrap (R186). -/
def spriteRow (y0 : Fin 32) (i : Nat) : Fin 32 := Fin.ofNat 32 (y0.val + i)

/-- The sprite rows from number `i` on (R188). -/
def plotRows (clip : Bool) (x0 : Fin 64) (y0 : Fin 32) (i : Nat) (p : Plot) : List Byte → Plot
  | [] => p
  | b :: bs => plotRows clip x0 y0 (i + 1) (plotRow clip (spriteRow y0 i) x0 b p) bs

/-- The start column: V[x] mod 64 (R186). -/
def startColumn (v : Byte) : Fin 64 := Fin.ofNat 64 v.toNat

/-- The start row: V[y] mod 32 (R186). -/
def startRow (v : Byte) : Fin 32 := Fin.ofNat 32 v.toNat

/-- The whole sprite plot (R188). -/
def plotSprite (clip : Bool) (fb : Framebuffer) (vx vy : Byte) (bytes : List Byte) : Plot :=
  plotRows clip (startColumn vx) (startRow vy) 0 ⟨fb, false⟩ bytes

/-- CLS: clears every pixel and requests a redraw (R187, D13). -/
def execCls (s : State) : Host.Outcome State Fault Refusal :=
  finish { s with fb := Vector.replicate Config.fbHeight 0#64 } .requestRedraw

/-- DRW under either value of Q_CLIP_RIGHT (R188, R192). -/
def drawWith (clip : Bool) (x y : RegId) (n : Nibble) (s : State) : Host.Outcome State Fault Refusal :=
  finishChecked s (memReadRange s s.i.toNat n.toNat) fun bytes =>
    finish ({ s with fb := (plotSprite clip s.fb (s.getV x) (s.getV y) bytes).fb }.setV vf
      (collisionFlag (plotSprite clip s.fb (s.getV x) (s.getV y) bytes).collision)) .requestRedraw

/-- DRW Vx, Vy, nibble (R188, D4). -/
def execDrw (x y : RegId) (n : Nibble) (s : State) : Host.Outcome State Fault Refusal :=
  drawWith quirks.clipRight x y n s

end Sys2Proof.Machine
end

