-- ==== Sys2Proof/Machine/IndexMemory.lean ====
section
/-! DEFINITION. Machine/IndexMemory.lean: the instructions on I and the transfers between registers and memory
(spec/42_index_memory.md R170 to R175). -/

namespace Sys2Proof.Machine

/-- LD I, addr (R170). -/
def execLdI (nnn : Addr12) (s : State) : Host.Outcome State Fault Refusal :=
  finish { s with i := zextAddr nnn } .advance

/-- ADD I, Vx: modulo 2^16, VF not written (R171, D12). -/
def execAddI (x : RegId) (s : State) : Host.Outcome State Fault Refusal :=
  finish { s with i := s.i + zextByte (s.getV x) } .advance

/-- LD F, Vx (R172). -/
def execLdF (x : RegId) (s : State) : Host.Outcome State Fault Refusal :=
  finish { s with i := glyphAddress quirks.fontBase (s.getV x) } .advance

/-- LD B, Vx: the three digits at I, I + 1, I + 2; I is not changed (R173). -/
def execLdB (x : RegId) (s : State) : Host.Outcome State Fault Refusal :=
  finishChecked s (memWriteRange s s.i.toNat (bcdDigits (s.getV x))) fun t => finish t .advance

/-- LD [I], Vx under either value of Q_INC_I (R174). -/
def storeBlockWith (incI : Bool) (x : RegId) (s : State) : Host.Outcome State Fault Refusal :=
  finishChecked s (memWriteRange s s.i.toNat (regBlock s x)) fun t =>
    finish { t with i := indexAfterBlock incI s.i x } .advance

/-- LD [I], Vx (R174, D3). -/
def execLdMemVx (x : RegId) (s : State) : Host.Outcome State Fault Refusal := storeBlockWith quirks.incI x s

/-- LD Vx, [I] under either value of Q_INC_I (R175). -/
def loadBlockWith (incI : Bool) (x : RegId) (s : State) : Host.Outcome State Fault Refusal :=
  finishChecked s (memReadRange s s.i.toNat (x.val + 1)) fun bytes =>
    finish { setRegBlock s 0 bytes with i := indexAfterBlock incI s.i x } .advance

/-- LD Vx, [I] (R175, D3). -/
def execLdVxMem (x : RegId) (s : State) : Host.Outcome State Fault Refusal := loadBlockWith quirks.incI x s

end Sys2Proof.Machine
end

