-- ==== Sys2Proof/Machine/KeypadTimer.lean ====
section
/-! DEFINITION. Machine/KeypadTimer.lean: SKP, SKNP, LD Vx,K and the timer instructions (spec/44_keypad_timers.md R200 to
R208). -/

namespace Sys2Proof.Machine

/-- SKP Vx (R200). -/
def execSkp (x : RegId) (s : State) : Host.Outcome State Fault Refusal :=
  finishChecked s (keyOperand (s.getV x)) fun k => skipIf s (s.key k)

/-- SKNP Vx (R201). -/
def execSknp (x : RegId) (s : State) : Host.Outcome State Fault Refusal :=
  finishChecked s (keyOperand (s.getV x)) fun k => skipIf s (!s.key k)

/-- LD Vx, K: sets the key-wait latch; PC stays and V[x] is written later, by the key press (R202, D14). -/
def execLdVxK (x : RegId) (s : State) : Host.Outcome State Fault Refusal := finish s (.enterKeyWait x)

/-- LD Vx, DT (R203). -/
def execLdVxDt (x : RegId) (s : State) : Host.Outcome State Fault Refusal := finish (s.setV x s.dt) .advance

/-- LD DT, Vx (R204). -/
def execLdDtVx (x : RegId) (s : State) : Host.Outcome State Fault Refusal :=
  finish { s with dt := s.getV x } .advance

/-- The Tone event of a value loaded into ST: none for 0 (R208, 90_conflicts.md C11). -/
def emitTone (s : State) (v : Byte) : State := if v = 0 then s else emit s (.tone v)

/-- LD ST, Vx (R208). -/
def execLdStVx (x : RegId) (s : State) : Host.Outcome State Fault Refusal :=
  finish (emitTone { s with st := s.getV x } (s.getV x)) .advance

end Sys2Proof.Machine
end

