-- ==== Sys2Proof/Machine/Fetch.lean ====
section
/-! DEFINITION. Machine/Fetch.lean: the instruction step (spec/40_control_flow.md R120) and placing an instruction's bytes
where it fetches. -/

namespace Sys2Proof.Machine

/-- Fetch, decode and execute, in the order of R223: the fetch bound, then the opcode, then the instruction's own
checks. -/
def fetchDecodeExec (s : State) : Host.Outcome State Fault Refusal :=
  finishChecked s (fetch s) fun w =>
    match decode w with
    | .error _ => finish s (.fatal (.unknownOpcode w))
    | .ok i => exec i s

/-- The instruction step (R120). With HALT set the machine has stopped (R224); with WAIT set it is not enabled and
nothing changes (R40, R202). -/
def instructionStep (s : State) : Host.Outcome State Fault Refusal :=
  match s.halt with
  | some r => .fault (.halted r)
  | none =>
    match s.wait with
    | some _ => .next s
    | none => fetchDecodeExec s

/-- The state with an instruction word at PC, most significant byte first, and the next step an instruction step that is
enabled: nothing lined up before it, no key wait, not halted. -/
def placeWord (s : State) (w : Word) : State :=
  { s with mem := s.mem.writeBytes s.pc.toNat (bytesOfWord w), agenda := [], wait := none, halt := none }

end Sys2Proof.Machine
end

