-- ==== Sys2Proof/Machine/Step.lean ====
section
/-! DEFINITION. Machine/Step.lean: one step of the machine (spec/60_exceptions.md R230). -/

namespace Sys2Proof.Machine

/-- One step of a given kind (R230). -/
def applyMove (m : Move) (s : State) : Host.Outcome State Fault Refusal :=
  match m with
  | .instruction => instructionStep s
  | .timerTick => .next (timerTick s)
  | .keyPress k => .next (keyPress s k)
  | .keyRelease k => .next (keyRelease s k)
  | .reset rom => resetMove s rom

/-- One step: the first the environment has lined up, else an instruction step (assumption log 5). -/
def step (s : State) : Host.Outcome State Fault Refusal := applyMove (nextMove s) (beginStep s)

/-- `s` with the instruction of the table word `w` where the next step fetches (assumption log 7). -/
def State.withFetchWord (s : State) (nbits w : Nat) : State := placeWord s (BitVec.ofNat 16 (w % 2 ^ nbits))

end Sys2Proof.Machine
end

