-- ==== Sys2Proof/Machine/Assembly.lean ====
section
/-! DEFINITION. Machine/Assembly.lean: the mnemonic form of an instruction (spec/30_encoding.md R100), numbers in decimal
and both operands of SHR and SHL always written. It is a notation only: no rule of the machine uses it. -/

namespace Sys2Proof.Machine

/-- `V0` to `V9`, `VA` to `VF` (R21, R100). -/
def regName (x : RegId) : String :=
  "V" ++ ["0", "1", "2", "3", "4", "5", "6", "7", "8", "9", "A", "B", "C", "D", "E", "F"].getD x.val ""

/-- A number operand. -/
def number (v : Nat) : String := Nat.repr v

/-- A mnemonic with one operand. -/
def asm1 (m a : String) : String := m ++ " " ++ a

/-- A mnemonic with two operands. -/
def asm2 (m a b : String) : String := m ++ " " ++ a ++ ", " ++ b

/-- The mnemonic form of an instruction (R96, R100). -/
def toAsm : Instr → String
  | .cls => "CLS"
  | .ret => "RET"
  | .sys a => asm1 "SYS" (number a.toNat)
  | .jp a => asm1 "JP" (number a.toNat)
  | .call a => asm1 "CALL" (number a.toNat)
  | .seByte x kk => asm2 "SE" (regName x) (number kk.toNat)
  | .sneByte x kk => asm2 "SNE" (regName x) (number kk.toNat)
  | .seReg x y => asm2 "SE" (regName x) (regName y)
  | .ldByte x kk => asm2 "LD" (regName x) (number kk.toNat)
  | .addByte x kk => asm2 "ADD" (regName x) (number kk.toNat)
  | .ldReg x y => asm2 "LD" (regName x) (regName y)
  | .orReg x y => asm2 "OR" (regName x) (regName y)
  | .andReg x y => asm2 "AND" (regName x) (regName y)
  | .xorReg x y => asm2 "XOR" (regName x) (regName y)
  | .addReg x y => asm2 "ADD" (regName x) (regName y)
  | .subReg x y => asm2 "SUB" (regName x) (regName y)
  | .shrReg x y => asm2 "SHR" (regName x) (regName y)
  | .subnReg x y => asm2 "SUBN" (regName x) (regName y)
  | .shlReg x y => asm2 "SHL" (regName x) (regName y)
  | .sneReg x y => asm2 "SNE" (regName x) (regName y)
  | .ldI a => asm2 "LD" "I" (number a.toNat)
  | .jpV0 a => asm2 "JP" "V0" (number a.toNat)
  | .rnd x kk => asm2 "RND" (regName x) (number kk.toNat)
  | .drw x y n => asm2 "DRW" (regName x) (regName y) ++ ", " ++ number n.toNat
  | .skp x => asm1 "SKP" (regName x)
  | .sknp x => asm1 "SKNP" (regName x)
  | .ldVxDt x => asm2 "LD" (regName x) "DT"
  | .ldVxK x => asm2 "LD" (regName x) "K"
  | .ldDtVx x => asm2 "LD" "DT" (regName x)
  | .ldStVx x => asm2 "LD" "ST" (regName x)
  | .addI x => asm2 "ADD" "I" (regName x)
  | .ldF x => asm2 "LD" "F" (regName x)
  | .ldB x => asm2 "LD" "B" (regName x)
  | .ldMemVx x => asm2 "LD" "[I]" (regName x)
  | .ldVxMem x => asm2 "LD" (regName x) "[I]"

end Sys2Proof.Machine
end

