-- ==== Sys2Proof/Machine/PackedPlot.lean ====
section
/-! DEFINITION. Machine/PackedPlot.lean: the source's byte-level description of the sprite plot (spec/43_display.md
R189). R188 (Machine/Display.lean) is the normative definition and the one `exec` uses; that the two agree is a
statement of its own. -/

namespace Sys2Proof.Machine

/-- XOR the part `p` into packed byte `k` of row `r` of the framebuffer, leaving the other bytes alone (R36, R189). -/
def xorPackedByte (fb : Framebuffer) (r : Fin 32) (k : Fin 8) (p : Byte) : Framebuffer :=
  fb.set r.val (fb[r.val] ^^^ ((p.setWidth 64) <<< (56 - 8 * k.val)))

/-- One target byte with its part: a collision when (old | new) != new, that is when a 1 became 0 (R189). -/
def plotPart (r : Fin 32) (k : Fin 8) (part : Byte) (p : Plot) : Plot where
  fb := xorPackedByte p.fb r k part
  collision := p.collision ||
    (packedByte p.fb r k ||| packedByte (xorPackedByte p.fb r k part) r k) != packedByte (xorPackedByte p.fb r k part) r k

/-- One sprite row on the packed bytes: `left` into column byte c0, and `right` into the next one when the row is not
byte-aligned, wrapping round the row or dropped at the right edge when clipping (R189). -/
def plotRowPacked (clip : Bool) (r : Fin 32) (x0 : Fin 64) (b : Byte) (p : Plot) : Plot :=
  if x0.val % 8 = 0 ∨ (x0.val / 8 = 7 ∧ clip = true) then
    plotPart r (Fin.ofNat 8 (x0.val / 8)) (b >>> (x0.val % 8)) p
  else
    plotPart r (Fin.ofNat 8 (x0.val / 8 + 1)) (b <<< (8 - x0.val % 8))
      (plotPart r (Fin.ofNat 8 (x0.val / 8)) (b >>> (x0.val % 8)) p)

/-- The sprite rows from number `i` on, on the packed bytes (R189). -/
def plotRowsPacked (clip : Bool) (x0 : Fin 64) (y0 : Fin 32) (i : Nat) (p : Plot) : List Byte → Plot
  | [] => p
  | b :: bs => plotRowsPacked clip x0 y0 (i + 1) (plotRowPacked clip (spriteRow y0 i) x0 b p) bs

/-- The whole sprite plot on the packed bytes (R189). -/
def plotSpritePacked (clip : Bool) (fb : Framebuffer) (vx vy : Byte) (bytes : List Byte) : Plot :=
  plotRowsPacked clip (startColumn vx) (startRow vy) 0 ⟨fb, false⟩ bytes

end Sys2Proof.Machine
end

