-- ==== Sys2Proof/Machine/Scheduler.lean ====
section
/-! DEFINITION. Machine/Scheduler.lean: the scheduler's contract with the core (spec/60_exceptions.md R240 to R244). The
scheduler stands outside the core (R5, R42): its queue and its fast-forward flag are no part of `State`, and `step` does
not use this file. -/

namespace Sys2Proof.Machine

/-- The input messages (R242). -/
inductive Message where
  | keyPress (k : KeyId)
  | keyRelease (k : KeyId)
  | fastForwardStart
  | fastForwardStop
  | close
  deriving DecidableEq, Repr

/-- What a tick sends out of the scheduler: the core's events, and the Shutdown of a close request (R236, R244). DESIGN
CHOICE (assumption log 22): the Shutdown of a close request carries no reason and no info. R236 gives Shutdown those of
R222, R222 has no reason for a close, and R244 says it is no Fatal. -/
inductive Signal where
  | event (e : Output)
  | closed
  deriving DecidableEq, Repr

/-- The scheduler: the core it drives, its queue in arrival order, and whether it is in fast-forward or has been asked to
close (R240, R242 to R244). -/
structure Scheduler where
  core : State
  queue : List Message
  fast : Bool
  closing : Bool
  deriving DecidableEq, Repr

/-- One message applied (R242). -/
def deliver (c : Scheduler) : Message → Scheduler
  | .keyPress k => { c with core := keyPress c.core k }
  | .keyRelease k => { c with core := keyRelease c.core k }
  | .fastForwardStart => { c with fast := true }
  | .fastForwardStop => { c with fast := false }
  | .close => { c with closing := true }

/-- Phase 1, drain: every pending message, in queue order (R240, R242). -/
def drain (c : Scheduler) : Scheduler := { c.queue.foldl deliver c with queue := [] }

/-- N, the instructions of a tick (R240, R243). -/
def budget (fast : Bool) : Nat := if fast then Config.ipt * Config.ffMult else Config.ipt

/-- Does this event end the run of a tick? A redraw or a Fatal does (R240, R241). -/
def endsRun : Output → Bool
  | .redraw _ => true
  | .tone _ => false
  | .shutdown _ _ => true

/-- Is this signal a redraw? -/
def isRedraw : Signal → Bool
  | .event (.redraw _) => true
  | .event (.tone _) => false
  | .event (.shutdown _ _) => false
  | .closed => false

/-- Phase 2, run: up to `n` instruction steps while the core is neither halted nor waiting, up to the first redraw or
Fatal; the events emitted, in order (R240). -/
def runPhase : Nat → State → State × List Output
  | 0, s => (s, [])
  | n + 1, s =>
    if s.halt.isSome || s.wait.isSome then (s, [])
    else
      match instructionStep { s with emitted := none } with
      | .next t =>
        match t.emitted with
        | none => runPhase n t
        | some e => if endsRun e then (t, [e]) else ((runPhase n t).1, e :: (runPhase n t).2)
      | .fault _ => (s, [])
      | .refused _ => (s, [])

/-- One scheduler tick with a budget of `n` instructions (R240): drain, run, timers once; the signals sent, in order. A
close request ends the run after the queue is drained (R244, assumption log 9). DESIGN CHOICE (assumption log 23): the
spec gives no tick after that one; here `closing` stays set, so a later tick drains what has arrived since and sends
`closed` again, and runs no instruction and no timer tick. -/
def tickWith (n : Nat) (c : Scheduler) : Scheduler × List Signal :=
  if (drain c).closing then (drain c, [.closed])
  else ({ drain c with core := timerTick (runPhase n (drain c).core).1 },
    (runPhase n (drain c).core).2.map .event)

/-- One scheduler tick (R240): N is read after the drain, so a fast-forward message counts at once. -/
def schedulerTick (c : Scheduler) : Scheduler × List Signal := tickWith (budget (drain c).fast) c

end Sys2Proof.Machine
end

