-- ==== Sys2Proof/Safety.lean ====
section
/-! DEFINITION. Safety.lean: what a good state of the machine is, in the terms claims use: the invariants of
spec/10_state.md R44 with the memory's canonical form, and a machine that has not stopped (spec/60_exceptions.md R224); and
the vocabulary of frames: what an instruction may change, part of the state by part. -/

namespace Sys2Proof.Machine

/-- Every byte the memory lists has an address the machine has (R33). -/
def Memory.inBounds (m : Memory) : Prop := ∀ c ∈ m, c.1 < Config.memSize

/-- What holds in every reachable state (R44), as far as one state can say it: (a), (b), (c), (d) and (e), the canonical
form of the memory, and two facts that make them inductive: a waiting machine's PC is that of a fetched instruction, and
a stopped machine does not wait. -/
structure State.Inv (s : State) : Prop where
  /-- The memory is in canonical form. -/
  memWf : s.mem.wf = true
  /-- Only addresses of MEM are listed (R33). -/
  memInBounds : s.mem.inBounds
  /-- R44 (a): SP is at most 16. -/
  stackDepth : s.stack.length ≤ Config.stackDepth
  /-- R44 (d): every entry of STACK is even and at most 0x1000. -/
  stackEntries : ∀ a ∈ s.stack, a.toNat % 2 = 0 ∧ a.toNat ≤ 0x1000
  /-- R44 (b): PC is even. -/
  pcEven : s.pc.toNat % 2 = 0
  /-- R44 (c), R27: PC is at most 0x10FE. -/
  pcRange : s.pc.toNat ≤ 0x10FE
  /-- A waiting machine's PC is the address of the LD Vx,K it fetched (R202). -/
  waitFetched : s.wait.isSome → s.pc.toNat ≤ 0xFFE
  /-- R44 (e): a stopped machine does not wait. -/
  haltNotWaiting : s.halt.isSome → s.wait = none

/-- The machine is running: it has not stopped with a Fatal (R41, R281). -/
def State.running (s : State) : Prop := s.halt = none

/-- An instruction step is enabled (R120, R230). -/
def State.enabled (s : State) : Prop := s.halt = none ∧ s.wait = none

/-! ### Frames -/

/-- The parts of the state, one per field. -/
inductive Part where
  | regs
  | i
  | pc
  | dt
  | st
  | stack
  | mem
  | fb
  | keys
  | lastKey
  | wait
  | halt
  | draws
  | emitted
  | agenda
  deriving DecidableEq, Repr

/-- The part reads the same in both states: every register, every byte of memory, every pixel and every key is read
singly. -/
def Part.same (s t : State) : Part → Prop
  | .regs => ∀ q, t.getV q = s.getV q
  | .i => t.i = s.i
  | .pc => t.pc = s.pc
  | .dt => t.dt = s.dt
  | .st => t.st = s.st
  | .stack => t.stack = s.stack
  | .mem => ∀ a, t.mem.read a = s.mem.read a
  | .fb => ∀ r c, pixel t.fb r c = pixel s.fb r c
  | .keys => ∀ k, t.key k = s.key k
  | .lastKey => t.lastKey = s.lastKey
  | .wait => t.wait = s.wait
  | .halt => t.halt = s.halt
  | .draws => t.draws = s.draws
  | .emitted => t.emitted = s.emitted
  | .agenda => t.agenda = s.agenda

/-- Every part of the state but the listed ones reads the same. -/
def Unchanged (except : List Part) (s t : State) : Prop := ∀ p, p ∉ except → p.same s t

/-- Every general register but the listed ones reads the same. -/
def RegsKept (except : List RegId) (s t : State) : Prop := ∀ q, q ∉ except → t.getV q = s.getV q

/-- Every byte of memory outside the `n` bytes at `a` reads the same. -/
def BytesKeptOutside (a n : Nat) (s t : State) : Prop := ∀ b, b < a ∨ a + n ≤ b → t.mem.read b = s.mem.read b

/-- `t` is `s` stopped by the Fatal `f` (R221): HALT takes the reason, Shutdown carries the Fatal and PC0, and nothing else
changes. -/
def StoppedBy (f : Fatal) (s t : State) : Prop :=
  t.halt = some f.reason ∧ t.emitted = some (.shutdown f s.pc) ∧ Unchanged [.halt, .emitted] s t

/-- The parts of the state an instruction that raises no Fatal may change (R39, R45, R61, R132). -/
def mayChange : Instr → List Part
  | .cls => [.fb, .pc, .emitted]
  | .ret | .call _ => [.stack, .pc]
  | .sys _ | .jp _ | .jpV0 _ => [.pc]
  | .seByte _ _ | .sneByte _ _ | .seReg _ _ | .sneReg _ _ | .skp _ | .sknp _ => [.pc]
  | .ldByte _ _ | .addByte _ _ | .ldReg _ _ | .orReg _ _ | .andReg _ _ | .xorReg _ _ => [.regs, .pc]
  | .addReg _ _ | .subReg _ _ | .shrReg _ _ | .subnReg _ _ | .shlReg _ _ | .ldVxDt _ => [.regs, .pc]
  | .rnd _ _ => [.regs, .pc, .draws]
  | .ldI _ | .addI _ | .ldF _ => [.i, .pc]
  | .drw _ _ _ => [.regs, .fb, .pc, .emitted]
  | .ldVxK _ => [.wait]
  | .ldDtVx _ => [.dt, .pc]
  | .ldStVx _ => [.st, .pc, .emitted]
  | .ldB _ => [.mem, .pc]
  | .ldMemVx _ => [.mem, .i, .pc]
  | .ldVxMem _ => [.regs, .i, .pc]

/-- The general registers an instruction may write: its destination, and VF where it is a flag writer (R39). -/
def mayWrite : Instr → RegId → Bool
  | .ldByte x _, q | .addByte x _, q | .ldReg x _, q | .rnd x _, q | .ldVxDt x, q => q == x
  | .orReg x _, q | .andReg x _, q | .xorReg x _, q => q == x || (q == vf && quirks.logicVfReset)
  | .addReg x _, q | .subReg x _, q | .shrReg x _, q | .subnReg x _, q | .shlReg x _, q => q == x || q == vf
  | .drw _ _ _, q => q == vf
  | .ldVxMem x, q => decide (q.val ≤ x.val)
  | .cls, _ | .ret, _ | .sys _, _ | .jp _, _ | .call _, _ | .seByte _ _, _ | .sneByte _ _, _ | .seReg _ _, _ => false
  | .sneReg _ _, _ | .ldI _, _ | .jpV0 _, _ | .skp _, _ | .sknp _, _ | .ldVxK _, _ | .ldDtVx _, _ => false
  | .ldStVx _, _ | .addI _, _ | .ldF _, _ | .ldB _, _ | .ldMemVx _, _ => false

/-- Pixel (r, c) lies under a lit pixel of the sprite DRW Vx, Vy, n plots from state `s`: sprite row `k` and column `j`
with its bit 1, the row wrapped round the bottom edge, the column wrapped round the right edge unless clipping (R186,
R188). -/
def SpriteCovers (clip : Bool) (s : State) (x y : RegId) (n : Nibble) (r : Fin 32) (c : Fin 64) : Prop :=
  ∃ k j : Nat, k < n.toNat ∧ j < 8 ∧ (s.mem.read (s.i.toNat + k)).getLsbD (7 - j) = true ∧
    r.val = ((s.getV y).toNat % 32 + k) % 32 ∧
    ((s.getV x).toNat % 64 + j = c.val ∨ (clip = false ∧ (s.getV x).toNat % 64 + j = c.val + 64))

end Sys2Proof.Machine
end

