-- ==== Sys2Proof/Certificates/Slice0/Obligations.lean ====
section
/-! DEFINITION. Certificates/Slice0/Obligations.lean: the statements for the provers. Each docstring names the rules of
spec/ it formalises; where a clause rests on a decision the spec marks as its own (D<n>) or on the model's choice (an
assumption log entry), the docstring names it. -/

open Sys2Proof Sys2Proof.Machine

/-! ### Encoding -/

/-- The encodings the source itself shows (R102). R102 says of 00EE only that it is the other non-no-op of family 0; that it
is RET the spec supplies from general knowledge (93_implementation_defined.md G5; log entry 18). -/
def Obligations.SourceWordsDecodeAsTheSourceSays : Prop :=
  decode 0x00E0 = .ok .cls ∧ decode 0x00EE = .ok .ret ∧ decode 0x1200 = .ok (.jp 0x200) ∧
  decode 0x6005 = .ok (.ldByte 0 5) ∧ decode 0x7005 = .ok (.addByte 0 5) ∧ decode 0x600A = .ok (.ldByte 0 10) ∧
  ∀ x : RegId,
    decode (BitVec.ofNat 16 (0xF033 + 256 * x.val)) = .ok (.ldB x) ∧
    decode (BitVec.ofNat 16 (0xF055 + 256 * x.val)) = .ok (.ldMemVx x) ∧
    decode (BitVec.ofNat 16 (0xF065 + 256 * x.val)) = .ok (.ldVxMem x)

/-- One word of each family, written out from R96 (95_test_vectors.md section 2.1). -/
def Obligations.OneWordOfEachFamilyDecodes : Prop :=
  decode 0x0123 = .ok (.sys 0x123) ∧ decode 0x1ABC = .ok (.jp 0xABC) ∧ decode 0x2ABC = .ok (.call 0xABC) ∧
  decode 0x3A42 = .ok (.seByte 10 0x42) ∧ decode 0x4A42 = .ok (.sneByte 10 0x42) ∧
  decode 0x5AB0 = .ok (.seReg 10 11) ∧ decode 0x6A42 = .ok (.ldByte 10 0x42) ∧
  decode 0x7A42 = .ok (.addByte 10 0x42) ∧ decode 0x8AB6 = .ok (.shrReg 10 11) ∧
  decode 0x8ABE = .ok (.shlReg 10 11) ∧ decode 0x9AB0 = .ok (.sneReg 10 11) ∧ decode 0xAABC = .ok (.ldI 0xABC) ∧
  decode 0xBABC = .ok (.jpV0 0xABC) ∧ decode 0xCA42 = .ok (.rnd 10 0x42) ∧ decode 0xDAB5 = .ok (.drw 10 11 5) ∧
  decode 0xEA9E = .ok (.skp 10) ∧ decode 0xEAA1 = .ok (.sknp 10) ∧ decode 0xFA0A = .ok (.ldVxK 10) ∧
  decode 0xFA18 = .ok (.ldStVx 10)

/-- Decode and encode agree, one way: every well-formed instruction is read back from its word, with every operand. -/
def Obligations.DecodeOfEncodeIsTheInstruction : Prop :=
  ∀ i : Instr, i.wf = true → decode (encode i) = .ok i

/-- Decode and encode agree, the other way: a word that decodes is the word of its instruction, which is well-formed. -/
def Obligations.EncodeOfDecodeIsTheWord : Prop :=
  ∀ (w : Word) (i : Instr), decode w = .ok i → i.wf = true ∧ encode i = w

/-- R96: the decoder reads from a word the instruction of the first row of the opcode map that the word selects, and
refuses it when it selects none. -/
def Obligations.DecoderFollowsTheFirstRowSelected : Prop :=
  ∀ w : Word, firstRow w =
    match decode w with
    | .ok i => some i.row
    | .error _ => none

/-- R98: the words the decoder refuses are those of families 5, 8, 9, E and F outside the defined keys (families 5 and 9
by the spec's decision D20), each refused under its own word. -/
def Obligations.RefusedWordsAreTheIllegalOnes : Prop :=
  ∀ w : Word, decode w = .error (.unknownOpcode w) ↔
    ((w.toNat / 4096 = 5 ∨ w.toNat / 4096 = 9) ∧ w.toNat % 16 ≠ 0) ∨
    (w.toNat / 4096 = 8 ∧ w.toNat % 16 ∈ [8, 9, 10, 11, 12, 13, 15]) ∨
    (w.toNat / 4096 = 14 ∧ w.toNat % 256 ∉ [0x9E, 0xA1]) ∨
    (w.toNat / 4096 = 15 ∧ w.toNat % 256 ∉ [0x07, 0x0A, 0x15, 0x18, 0x1E, 0x29, 0x33, 0x55, 0x65])

/-- R97: of the family-0 words 0x00E0 is CLS, 0x00EE is RET and every other one is SYS, which does nothing but advance. -/
def Obligations.FamilyZeroIsNoOpButClsAndRet : Prop :=
  (∀ w : Word, w.toNat < 0x1000 →
    decode w = .ok (if w = 0x00E0 then .cls else if w = 0x00EE then .ret else .sys (w.setWidth 12))) ∧
  ∀ (nnn : Addr12) (s : State), ∃ t, exec (.sys nnn) s = .next t ∧ t.pc = s.pc + 2 ∧ Unchanged [.pc] s t

/-! ### The step -/

/-- When the next step is an instruction step, it is enabled, and the two bytes at PC decode to `i`, the step is `exec i`
at that state; around it the step only clears the last event and takes itself off the agenda (log entries 5 and 6). -/
def Obligations.StepRunsTheDecodedInstruction : Prop :=
  ∀ (s : State) (i : Instr), s.enabled → nextMove s = .instruction → s.pc.toNat + 1 < 4096 →
    decode (wordOfBytes (s.mem.read s.pc.toNat) (s.mem.read (s.pc.toNat + 1))) = .ok i →
    step s = exec i { s with emitted := none, agenda := s.agenda.tail }

/-- The instruction step stops with FetchOutOfBounds when PC + 1 is outside memory, whatever is there, and with
UnknownOpcode when the word at PC is illegal; the order is the spec's decision D31, what stays is D17. -/
def Obligations.FetchAndDecodeFatals : Prop :=
  ∀ s : State, s.enabled →
    (4096 ≤ s.pc.toNat + 1 → ∃ t, instructionStep s = .next t ∧ StoppedBy .fetchOutOfBounds s t) ∧
    (s.pc.toNat + 1 < 4096 → ∀ w : Word, w.toNat = (s.mem.read s.pc.toNat).toNat * 256 +
        (s.mem.read (s.pc.toNat + 1)).toNat →
      (∀ i, decode w ≠ .ok i) → ∃ t, instructionStep s = .next t ∧ StoppedBy (.unknownOpcode w) s t)

/-- R64: the fetched word is MEM[PC] * 256 + MEM[PC + 1], and from PC = 4095 on the fetch raises
Fatal(FetchOutOfBounds, PC): HALT takes the reason and Shutdown carries PC. -/
def Obligations.FetchIsBigEndianAndBounded : Prop :=
  ∀ s : State,
    (4096 ≤ s.pc.toNat + 1 → fetch s = .error .fetchOutOfBounds ∧
      (s.enabled → ∃ t, instructionStep s = .next t ∧ t.halt = some .fetchOutOfBounds ∧
        t.emitted = some (.shutdown .fetchOutOfBounds s.pc))) ∧
    (s.pc.toNat + 1 < 4096 → ∃ w, fetch s = .ok w ∧
      w.toNat = (s.mem.read s.pc.toNat).toNat * 256 + (s.mem.read (s.pc.toNat + 1)).toNat)

/-- `withFetchWord` places the word where the next step fetches: that step is `exec` of what the word decodes to, at the
state with the word in place. -/
def Obligations.PlacedWordIsTheNextInstruction : Prop :=
  ∀ (s : State) (n : Nat) (i : Instr), s.mem.wf = true → s.pc.toNat + 1 < 4096 → n < 65536 →
    decode (BitVec.ofNat 16 n) = .ok i →
    step (s.withFetchWord 16 n) = exec i { s.withFetchWord 16 n with emitted := none }

/-- Every instruction answers a next state from every state: none faults, none is refused. -/
def Obligations.EveryInstructionAnswersNext : Prop :=
  ∀ (i : Instr) (s : State), ∃ t, exec i s = .next t

/-- A step never refuses, and it faults in two cases only: an instruction step of a stopped machine, and a reset with an
oversized ROM. -/
def Obligations.StepFaultsOnlyWhenHaltedOrRomTooLarge : Prop :=
  ∀ s : State,
    (∀ r, step s ≠ .refused r) ∧
    (∀ r, step s = .fault (.halted r) ↔ nextMove s = .instruction ∧ s.halt = some r) ∧
    (step s = .fault .oversizedRom ↔ ∃ rom : List Byte, nextMove s = .reset rom ∧ 3584 < rom.length)

/-- Fatal entry (R221; that nothing else changes is the spec's decision D17): an instruction step that stops the machine
emits Shutdown with the Fatal and PC0 and changes nothing else. -/
def Obligations.FatalEntryChangesOnlyHalt : Prop :=
  ∀ (s t : State), instructionStep s = .next t → t.halt ≠ s.halt → ∃ f, StoppedBy f s t

/-- Nothing is enabled after a Fatal but reset (R224, decision D28): an instruction step faults, an event changes
nothing, and reset builds a running machine. -/
def Obligations.OnlyResetLeavesAFatal : Prop :=
  ∀ (s : State) (r : FatalReason), s.halt = some r →
    (nextMove s = .instruction → step s = .fault (.halted r)) ∧
    (nextMove s = .timerTick ∨ (∃ k, nextMove s = .keyPress k) ∨ (∃ k, nextMove s = .keyRelease k) →
      ∃ t, step s = .next t ∧ t.emitted = none ∧ Unchanged [.emitted, .agenda] s t) ∧
    (∀ rom : List Byte, nextMove s = .reset rom → rom.length ≤ 3584 →
      ∃ t, step s = .next t ∧ t.halt = none ∧ t.pc = 0x200)

/-- What each instruction may change, over all 35: from any state it stops the machine by a Fatal that changes nothing
else, or it changes only the parts listed for it in `mayChange`. -/
def Obligations.InstructionsChangeOnlyTheirOwnParts : Prop :=
  ∀ (i : Instr) (s t : State), exec i s = .next t → (∃ f, StoppedBy f s t) ∨ Unchanged (mayChange i) s t

/-- What each instruction may write among V0 to VF, over all 35: its destination, and VF where it writes the flag. -/
def Obligations.InstructionsWriteOnlyTheirOwnRegisters : Prop :=
  ∀ (i : Instr) (s t : State) (q : RegId), exec i s = .next t → mayWrite i q = false → t.getV q = s.getV q

/-- No instruction reads ST (R29): changing ST before an instruction changes nothing after it but ST. -/
def Obligations.NoInstructionReadsTheSoundTimer : Prop :=
  ∀ (i : Instr) (s t : State) (v : Byte), exec i s = .next t →
    ∃ v', exec i { s with st := v } = .next { t with st := v' } ∧
      (Part.st ∉ mayChange i → v' = v) ∧ (Part.st ∈ mayChange i → v' = t.st)

/-! ### Control flow -/

/-- RET (R122) pops the newest return address into PC, or is StackUnderflow on an empty stack, with nothing else changed
(decision D17). -/
def Obligations.RetPopsTheNewestAddress : Prop :=
  (∀ s : State, s.stack = [] → ∃ t, exec .ret s = .next t ∧ StoppedBy .stackUnderflow s t) ∧
  ∀ (s : State) (l : List Word) (a : Word), s.stack = l ++ [a] →
    ∃ t, exec .ret s = .next t ∧ t.pc = a ∧ t.stack = l ∧ Unchanged [.pc, .stack] s t

/-- JP: to an even target it jumps; an odd target is MisalignedTarget (decision D5). -/
def Obligations.JumpGoesToEvenTargetsOnly : Prop :=
  ∀ (nnn : Addr12) (s : State),
    (nnn.toNat % 2 = 0 → ∃ t, exec (.jp nnn) s = .next t ∧ t.pc.toNat = nnn.toNat ∧ Unchanged [.pc] s t) ∧
    (nnn.toNat % 2 = 1 → ∃ t, exec (.jp nnn) s = .next t ∧ StoppedBy (.misalignedTarget (nnn.setWidth 16)) s t)

/-- CALL: an odd target is MisalignedTarget first (decisions D5, D31), then a full stack is StackOverflow, else PC0 + 2 is
pushed (decision D21) and PC takes the target. -/
def Obligations.CallPushesTheReturnAddress : Prop :=
  ∀ (nnn : Addr12) (s : State),
    (nnn.toNat % 2 = 1 → ∃ t, exec (.call nnn) s = .next t ∧ StoppedBy (.misalignedTarget (nnn.setWidth 16)) s t) ∧
    (nnn.toNat % 2 = 0 → 16 ≤ s.stack.length → ∃ t, exec (.call nnn) s = .next t ∧ StoppedBy .stackOverflow s t) ∧
    (nnn.toNat % 2 = 0 → s.stack.length < 16 →
      ∃ t, exec (.call nnn) s = .next t ∧ t.pc.toNat = nnn.toNat ∧ t.stack = s.stack ++ [s.pc + 2] ∧
        Unchanged [.pc, .stack] s t)

/-- A CALL that succeeds and a RET right after it come back to the instruction after the CALL with the stack as it was. -/
def Obligations.RetAfterCallComesBack : Prop :=
  ∀ (nnn : Addr12) (s : State), nnn.toNat % 2 = 0 → s.stack.length < 16 →
    ∃ t u, exec (.call nnn) s = .next t ∧ exec .ret t = .next u ∧ u.pc = s.pc + 2 ∧ Unchanged [.pc] s u

/-- R125 to R128: the four compare-and-skip instructions advance PC by 4 when their condition holds and by 2 when it does
not, and change nothing else. -/
def Obligations.SkipsFollowTheirCondition : Prop :=
  ∀ (x y : RegId) (kk : Byte) (s : State),
    (∃ t, exec (.seByte x kk) s = .next t ∧ t.pc = s.pc + (if s.getV x = kk then 4 else 2) ∧ Unchanged [.pc] s t) ∧
    (∃ t, exec (.sneByte x kk) s = .next t ∧ t.pc = s.pc + (if s.getV x = kk then 2 else 4) ∧ Unchanged [.pc] s t) ∧
    (∃ t, exec (.seReg x y) s = .next t ∧ t.pc = s.pc + (if s.getV x = s.getV y then 4 else 2) ∧
      Unchanged [.pc] s t) ∧
    (∃ t, exec (.sneReg x y) s = .next t ∧ t.pc = s.pc + (if s.getV x = s.getV y then 2 else 4) ∧
      Unchanged [.pc] s t)

/-- JP V0: the target is nnn + V0, not reduced modulo 4096; always V0 (decision D22); an odd target is MisalignedTarget
(decision D5). -/
def Obligations.IndexedJumpAddsV0 : Prop :=
  ∀ (nnn : Addr12) (s : State),
    ((nnn.toNat + (s.getV 0).toNat) % 2 = 0 →
      ∃ t, exec (.jpV0 nnn) s = .next t ∧ t.pc.toNat = nnn.toNat + (s.getV 0).toNat ∧ Unchanged [.pc] s t) ∧
    ((nnn.toNat + (s.getV 0).toNat) % 2 = 1 →
      ∃ t, exec (.jpV0 nnn) s = .next t ∧
        StoppedBy (.misalignedTarget (BitVec.ofNat 16 (nnn.toNat + (s.getV 0).toNat))) s t)

/-! ### Register load, arithmetic, logic, shift, random -/

/-- R140, R146: LD Vx, byte and LD Vx, Vy. -/
def Obligations.LoadsPutTheValueInVx : Prop :=
  ∀ (x y : RegId) (kk : Byte) (s : State),
    (∃ t, exec (.ldByte x kk) s = .next t ∧ t.getV x = kk ∧ RegsKept [x] s t ∧ t.pc = s.pc + 2 ∧
      Unchanged [.regs, .pc] s t) ∧
    (∃ t, exec (.ldReg x y) s = .next t ∧ t.getV x = s.getV y ∧ RegsKept [x] s t ∧ t.pc = s.pc + 2 ∧
      Unchanged [.regs, .pc] s t)

/-- ADD Vx, byte: the sum modulo 256, and VF not written (decision D23). -/
def Obligations.AddByteWrapsAndKeepsVF : Prop :=
  ∀ (x : RegId) (kk : Byte) (s : State),
    ∃ t, exec (.addByte x kk) s = .next t ∧ (t.getV x).toNat = ((s.getV x).toNat + kk.toNat) % 256 ∧
      RegsKept [x] s t ∧ t.pc = s.pc + 2 ∧ Unchanged [.regs, .pc] s t

/-- R147 to R149: OR, AND, XOR. VF ends 0 when Q_LOGIC_VF_RESET is on, also when x is 15 (decision D32), and is an ordinary
register when it is off; the parameter is left open (log entry 2), so the statement holds for both of its values. -/
def Obligations.LogicResultsAndVF : Prop :=
  ∀ (x y : RegId) (s : State), ∀ p ∈ [(Instr.orReg x y, s.getV x ||| s.getV y), (Instr.andReg x y, s.getV x &&& s.getV y),
      (Instr.xorReg x y, s.getV x ^^^ s.getV y)],
    ∃ t, exec p.1 s = .next t ∧ (x ≠ 15 → t.getV x = p.2) ∧
      t.getV 15 = (if quirks.logicVfReset then 0 else if x = 15 then p.2 else s.getV 15) ∧
      RegsKept [x, 15] s t ∧ t.pc = s.pc + 2 ∧ Unchanged [.regs, .pc] s t

/-- R150: ADD Vx, Vy. The sum modulo 256; VF is the carry, also when x or y is 15 (decision
D32). -/
def Obligations.AddSetsCarry : Prop :=
  ∀ (x y : RegId) (s : State),
    ∃ t, exec (.addReg x y) s = .next t ∧
      t.getV 15 = (if 255 < (s.getV x).toNat + (s.getV y).toNat then 1 else 0) ∧
      (x ≠ 15 → (t.getV x).toNat = ((s.getV x).toNat + (s.getV y).toNat) % 256) ∧
      RegsKept [x, 15] s t ∧ t.pc = s.pc + 2 ∧ Unchanged [.regs, .pc] s t

/-- R151, R153: SUB and SUBN. The difference modulo 256; VF is 1 when there is no borrow, the equal case among them,
also when x is 15 (decision D32). -/
def Obligations.SubtractionsSetNoBorrow : Prop :=
  ∀ (x y : RegId) (s : State),
    (∃ t, exec (.subReg x y) s = .next t ∧
      t.getV 15 = (if (s.getV y).toNat ≤ (s.getV x).toNat then 1 else 0) ∧
      (x ≠ 15 → (t.getV x).toNat = ((s.getV x).toNat + 256 - (s.getV y).toNat) % 256) ∧
      RegsKept [x, 15] s t ∧ t.pc = s.pc + 2 ∧ Unchanged [.regs, .pc] s t) ∧
    (∃ t, exec (.subnReg x y) s = .next t ∧
      t.getV 15 = (if (s.getV x).toNat ≤ (s.getV y).toNat then 1 else 0) ∧
      (x ≠ 15 → (t.getV x).toNat = ((s.getV y).toNat + 256 - (s.getV x).toNat) % 256) ∧
      RegsKept [x, 15] s t ∧ t.pc = s.pc + 2 ∧ Unchanged [.regs, .pc] s t)

/-- SHR and SHL: the source operand is Vy (decision D1); the result goes to Vx and the bit shifted out to VF,
also when x is 15 (decision D32). -/
def Obligations.ShiftsTakeVyAndSetTheBitShiftedOut : Prop :=
  ∀ (x y : RegId) (s : State),
    (∃ t, exec (.shrReg x y) s = .next t ∧ (t.getV 15).toNat = (s.getV y).toNat % 2 ∧
      (x ≠ 15 → (t.getV x).toNat = (s.getV y).toNat / 2) ∧
      RegsKept [x, 15] s t ∧ t.pc = s.pc + 2 ∧ Unchanged [.regs, .pc] s t) ∧
    (∃ t, exec (.shlReg x y) s = .next t ∧ (t.getV 15).toNat = (s.getV y).toNat / 128 ∧
      (x ≠ 15 → (t.getV x).toNat = (s.getV y).toNat * 2 % 256) ∧
      RegsKept [x, 15] s t ∧ t.pc = s.pc + 2 ∧ Unchanged [.regs, .pc] s t)

/-- The other value of Q_SHIFT_SRC, kept as a parameter: with VX the shifts read Vx, as with y = x under VY. -/
def Obligations.ShiftsUnderVxReadVx : Prop :=
  ∀ (x y : RegId) (s : State),
    shrWith .vx x y s = exec (.shrReg x x) s ∧ shlWith .vx x y s = exec (.shlReg x x) s

/-- RND: Vx takes the byte drawn, masked by kk, and the draw is consumed. The byte is the model's free value (log entry
3): nothing is known of it but that the bits of Vx outside kk are 0. -/
def Obligations.RndMasksTheDrawnByte : Prop :=
  ∀ (x : RegId) (kk : Byte) (s : State),
    ∃ t, exec (.rnd x kk) s = .next t ∧ t.getV x = Config.freeByte s.draws &&& kk ∧ t.getV x &&& ~~~kk = 0 ∧
      t.draws = s.draws + 1 ∧ RegsKept [x] s t ∧ t.pc = s.pc + 2 ∧ Unchanged [.regs, .draws, .pc] s t

/-! ### Address register and memory -/

/-- LD I, addr (R170): I takes nnn zero-extended, and nothing else changes but PC. -/
def Obligations.LoadIndexTakesTheAddress : Prop :=
  ∀ (nnn : Addr12) (s : State),
    ∃ t, exec (.ldI nnn) s = .next t ∧ t.i.toNat = nnn.toNat ∧ t.pc = s.pc + 2 ∧ Unchanged [.i, .pc] s t

/-- ADD I, Vx wraps modulo 2^16 and leaves VF alone (decision D12); LD F, Vx takes the glyph of the low nibble (decisions
D6, D11). -/
def Obligations.IndexArithmetic : Prop :=
  ∀ (x : RegId) (s : State),
    (∃ t, exec (.addI x) s = .next t ∧ t.i.toNat = (s.i.toNat + (s.getV x).toNat) % 65536 ∧ t.pc = s.pc + 2 ∧
      Unchanged [.i, .pc] s t) ∧
    (∃ t, exec (.ldF x) s = .next t ∧ t.i.toNat = 5 * ((s.getV x).toNat % 16) ∧ t.pc = s.pc + 2 ∧
      Unchanged [.i, .pc] s t)

/-- R173: LD B, Vx. The hundreds, tens and units digits of Vx at I, I + 1, I + 2, or MemOutOfBounds with nothing changed
(decision D17) when I + 2 is outside memory. -/
def Obligations.BcdStoresThreeDigits : Prop :=
  ∀ (x : RegId) (s : State),
    (4096 ≤ s.i.toNat + 2 → ∃ t, exec (.ldB x) s = .next t ∧ StoppedBy (.memOutOfBounds (s.i.toNat + 2)) s t) ∧
    (s.i.toNat + 2 < 4096 → s.mem.wf = true →
      ∃ t, exec (.ldB x) s = .next t ∧
        (t.mem.read s.i.toNat).toNat = (s.getV x).toNat / 100 ∧
        (t.mem.read (s.i.toNat + 1)).toNat = (s.getV x).toNat / 10 % 10 ∧
        (t.mem.read (s.i.toNat + 2)).toNat = (s.getV x).toNat % 10 ∧
        BytesKeptOutside s.i.toNat 3 s t ∧ t.pc = s.pc + 2 ∧ Unchanged [.mem, .pc] s t)

/-- LD [I], Vx: V0 up to Vx at I up to I + x and then I past the last byte (decision D3), or MemOutOfBounds with nothing
changed (decision D17). With Q_INC_I off only I differs: it stays. -/
def Obligations.BlockStoreCopiesRegistersToMemory : Prop :=
  ∀ (x : RegId) (s : State),
    (4096 ≤ s.i.toNat + x.val →
      ∃ t, exec (.ldMemVx x) s = .next t ∧ StoppedBy (.memOutOfBounds (s.i.toNat + x.val)) s t) ∧
    (s.i.toNat + x.val < 4096 → s.mem.wf = true →
      ∃ t, exec (.ldMemVx x) s = .next t ∧ storeBlockWith false x s = .next { t with i := s.i } ∧
        (∀ j : RegId, j.val ≤ x.val → t.mem.read (s.i.toNat + j.val) = s.getV j) ∧
        BytesKeptOutside s.i.toNat (x.val + 1) s t ∧ t.i.toNat = s.i.toNat + x.val + 1 ∧ t.pc = s.pc + 2 ∧
        Unchanged [.mem, .i, .pc] s t)

/-- LD Vx, [I]: V0 up to Vx from I up to I + x and then I past the last byte (decision D3), or MemOutOfBounds with nothing
changed (decision D17). With Q_INC_I off only I differs: it stays. -/
def Obligations.BlockLoadCopiesMemoryToRegisters : Prop :=
  ∀ (x : RegId) (s : State),
    (4096 ≤ s.i.toNat + x.val →
      ∃ t, exec (.ldVxMem x) s = .next t ∧ StoppedBy (.memOutOfBounds (s.i.toNat + x.val)) s t) ∧
    (s.i.toNat + x.val < 4096 →
      ∃ t, exec (.ldVxMem x) s = .next t ∧ loadBlockWith false x s = .next { t with i := s.i } ∧
        (∀ j : RegId, j.val ≤ x.val → t.getV j = s.mem.read (s.i.toNat + j.val)) ∧
        (∀ j : RegId, x.val < j.val → t.getV j = s.getV j) ∧ t.i.toNat = s.i.toNat + x.val + 1 ∧ t.pc = s.pc + 2 ∧
        Unchanged [.regs, .i, .pc] s t)

/-- A store is seen by the next fetch (R75): LD [I], V1 with I at the next instruction replaces that instruction by the
word V0, V1. -/
def Obligations.StoreIsSeenByTheNextFetch : Prop :=
  ∀ s : State, s.mem.wf = true → s.i = s.pc + 2 → s.pc.toNat + 3 < 4096 →
    ∃ t w, exec (.ldMemVx 1) s = .next t ∧ fetch t = .ok w ∧
      w.toNat = (s.getV 0).toNat * 256 + (s.getV 1).toNat

/-- The canonical form determines the memory: two memories in it that read the same at every address are equal. -/
def Obligations.CanonicalMemoriesThatReadAlikeAreEqual : Prop :=
  ∀ m n : Memory, m.wf = true → n.wf = true → (∀ a, m.read a = n.read a) → m = n

/-! ### Display -/

/-- CLS clears every pixel and emits one Redraw of the 256 zero bytes (that it requests a redraw is decision D13). -/
def Obligations.ClsClearsTheDisplay : Prop :=
  ∀ s : State,
    ∃ t, exec .cls s = .next t ∧ (∀ r c, pixel t.fb r c = false) ∧
      t.emitted = some (.redraw (List.replicate 256 0)) ∧ t.pc = s.pc + 2 ∧ Unchanged [.fb, .emitted, .pc] s t

/-- DRW, pixel by pixel: a pixel is flipped exactly when a lit sprite pixel covers it (bit 7 leftmost is decision D18,
the wrap at the right edge D4), VF is 1 exactly when a lit pixel was covered, one Redraw carries the framebuffer after
it; n = 0 reads and flips nothing (decision D30). -/
def Obligations.DrawXorsTheSprite : Prop :=
  ∀ (x y : RegId) (n : Nibble) (s : State), (n.toNat = 0 ∨ s.i.toNat + n.toNat ≤ 4096) →
    ∃ t, exec (.drw x y n) s = .next t ∧
      (∀ r c, pixel t.fb r c = true ↔ Xor (pixel s.fb r c = true) (SpriteCovers false s x y n r c)) ∧
      ((∃ r c, pixel s.fb r c = true ∧ SpriteCovers false s x y n r c) → t.getV 15 = 1) ∧
      ((¬ ∃ r c, pixel s.fb r c = true ∧ SpriteCovers false s x y n r c) → t.getV 15 = 0) ∧
      t.emitted = some (.redraw (packed t.fb)) ∧ RegsKept [15] s t ∧ t.pc = s.pc + 2 ∧
      Unchanged [.regs, .fb, .emitted, .pc] s t

/-- The clip variant (R192): with Q_CLIP_RIGHT on, the columns past 63 are dropped and nothing else differs from the draw
under wrapping: the rows still wrap, VF is 1 exactly when a lit pixel was covered, one Redraw carries the framebuffer
after it, and a sprite that runs past the end of memory stops before any pixel changes (decision D17). That bit 7 is the
leftmost pixel is decision D18, that n = 0 draws nothing D30. -/
def Obligations.ClippedDrawDropsColumnsPast63 : Prop :=
  ∀ (x y : RegId) (n : Nibble) (s : State),
    ((n.toNat = 0 ∨ s.i.toNat + n.toNat ≤ 4096) →
      ∃ t, drawWith true x y n s = .next t ∧
        (∀ r c, pixel t.fb r c = true ↔ Xor (pixel s.fb r c = true) (SpriteCovers true s x y n r c)) ∧
        ((∃ r c, pixel s.fb r c = true ∧ SpriteCovers true s x y n r c) → t.getV 15 = 1) ∧
        ((¬ ∃ r c, pixel s.fb r c = true ∧ SpriteCovers true s x y n r c) → t.getV 15 = 0) ∧
        t.emitted = some (.redraw (packed t.fb)) ∧ RegsKept [15] s t ∧ t.pc = s.pc + 2 ∧
        Unchanged [.regs, .fb, .emitted, .pc] s t) ∧
    (0 < n.toNat → 4096 < s.i.toNat + n.toNat →
      ∃ t, drawWith true x y n s = .next t ∧ StoppedBy (.memOutOfBounds (s.i.toNat + n.toNat - 1)) s t)

/-- DRW whose sprite runs past the end of memory stops before any pixel changes (decision D17). -/
def Obligations.DrawOutsideMemoryStops : Prop :=
  ∀ (x y : RegId) (n : Nibble) (s : State), 0 < n.toNat → 4096 < s.i.toNat + n.toNat →
    ∃ t, exec (.drw x y n) s = .next t ∧ StoppedBy (.memOutOfBounds (s.i.toNat + n.toNat - 1)) s t

/-- R190: drawing the same sprite twice at the same location returns the framebuffer to its prior state; the first VF is
0 when no sprite pixel was on before it, and the second VF is 1 exactly when some sprite pixel was off before the first
draw. The location is the same in both draws whenever the first one leaves Vx mod 64 and Vy mod 32 alone, as it does
when neither x nor y is 15 (95_test_vectors.md S1). Which pixels the sprite covers rests on decisions D4 and D18. -/
def Obligations.DrawingTwiceRestoresTheFramebuffer : Prop :=
  ∀ (x y : RegId) (n : Nibble) (s : State), (n.toNat = 0 ∨ s.i.toNat + n.toNat ≤ 4096) →
    ∃ t, exec (.drw x y n) s = .next t ∧
      ((¬ ∃ r c, pixel s.fb r c = true ∧ SpriteCovers false s x y n r c) → t.getV 15 = 0) ∧
      (x ≠ 15 → y ≠ 15 → t.getV x = s.getV x ∧ t.getV y = s.getV y) ∧
      ((t.getV x).toNat % 64 = (s.getV x).toNat % 64 → (t.getV y).toNat % 32 = (s.getV y).toNat % 32 →
        ∃ u, exec (.drw x y n) t = .next u ∧ u.fb = s.fb ∧
          ((∃ r c, pixel s.fb r c = false ∧ SpriteCovers false s x y n r c) → u.getV 15 = 1) ∧
          ((¬ ∃ r c, pixel s.fb r c = false ∧ SpriteCovers false s x y n r c) → u.getV 15 = 0))

/-- R189: the source's byte-level plot gives the same framebuffer and the same collision flag as the pixel-level one,
under both values of Q_CLIP_RIGHT. -/
def Obligations.BytePlotIsPixelPlot : Prop :=
  ∀ (clip : Bool) (fb : Framebuffer) (vx vy : Byte) (bytes : List Byte),
    plotSpritePacked clip fb vx vy bytes = plotSprite clip fb vx vy bytes

/-- The packed view (R36, bit order by decision D19): 256 bytes, and pixel (r, c) is bit 7 - c mod 8 of byte
8 r + c div 8. -/
def Obligations.PackedViewHoldsThePixels : Prop :=
  ∀ fb : Framebuffer, (packed fb).length = 256 ∧
    ∀ (r : Fin 32) (c : Fin 64),
      ((packed fb).getD (8 * r.val + c.val / 8) 0).getLsbD (7 - c.val % 8) = pixel fb r c

/-! ### Keypad and timers -/

/-- SKP and SKNP on the key Vx names, and BadKeyIndex above 15 (decision D10). -/
def Obligations.KeySkipsSampleTheKeypad : Prop :=
  ∀ (x : RegId) (s : State),
    (∀ k : KeyId, (s.getV x).toNat = k.val →
      (∃ t, exec (.skp x) s = .next t ∧ t.pc = s.pc + (if s.key k = true then 4 else 2) ∧ Unchanged [.pc] s t) ∧
      (∃ t, exec (.sknp x) s = .next t ∧ t.pc = s.pc + (if s.key k = true then 2 else 4) ∧ Unchanged [.pc] s t)) ∧
    (15 < (s.getV x).toNat →
      (∃ t, exec (.skp x) s = .next t ∧ StoppedBy (.badKeyIndex (s.getV x)) s t) ∧
      (∃ t, exec (.sknp x) s = .next t ∧ StoppedBy (.badKeyIndex (s.getV x)) s t))

/-- LD Vx, K sets the latch and changes nothing else, PC among it (decision D14). -/
def Obligations.KeyWaitFreezesPC : Prop :=
  ∀ (x : RegId) (s : State), ∃ t, exec (.ldVxK x) s = .next t ∧ t.wait = some x ∧ Unchanged [.wait] s t

/-- LD Vx, DT and LD DT, Vx (R203, R204), and LD ST, Vx as the pseudocode of R208 has it: it emits Tone of the value
written, and nothing for 0. -/
def Obligations.TimerInstructions : Prop :=
  ∀ (x : RegId) (s : State),
    (∃ t, exec (.ldVxDt x) s = .next t ∧ t.getV x = s.dt ∧ RegsKept [x] s t ∧ t.pc = s.pc + 2 ∧
      Unchanged [.regs, .pc] s t) ∧
    (∃ t, exec (.ldDtVx x) s = .next t ∧ t.dt = s.getV x ∧ t.pc = s.pc + 2 ∧ Unchanged [.dt, .pc] s t) ∧
    (∃ t, exec (.ldStVx x) s = .next t ∧ t.st = s.getV x ∧
      t.emitted = (if s.getV x = 0 then s.emitted else some (.tone (s.getV x))) ∧ t.pc = s.pc + 2 ∧
      Unchanged [.st, .emitted, .pc] s t)

/-- R231: the timer tick decrements both timers, each saturating at 0, and touches nothing else; it is enabled during a
key wait and not once HALT is set (decision D28; that it then changes nothing is log entry 1). -/
def Obligations.TimerTickCountsDown : Prop :=
  ∀ s : State,
    (s.halt = none → (timerTick s).dt.toNat = s.dt.toNat - 1 ∧ (timerTick s).st.toNat = s.st.toNat - 1 ∧
      Unchanged [.dt, .st] s (timerTick s)) ∧
    (s.halt ≠ none → timerTick s = s)

/-- The key press (R232, R233): of a released key it presses it and records it; if a wait is pending it resolves it in
the same step (decision D14). Of a pressed key it changes nothing (decision D15), nor once HALT is set (decision D28,
log entry 1). -/
def Obligations.KeyPressResolvesTheWait : Prop :=
  ∀ (s : State) (k : KeyId),
    (s.halt ≠ none ∨ s.key k = true → keyPress s k = s) ∧
    (s.halt = none → s.key k = false →
      (keyPress s k).key k = true ∧ (∀ j, j ≠ k → (keyPress s k).key j = s.key j) ∧
      (keyPress s k).lastKey = some k ∧
      (s.wait = none → Unchanged [.keys, .lastKey] s (keyPress s k)) ∧
      ∀ x, s.wait = some x →
        (keyPress s k).wait = none ∧ (keyPress s k).pc = s.pc + 2 ∧ ((keyPress s k).getV x).toNat = k.val ∧
        RegsKept [x] s (keyPress s k) ∧ Unchanged [.keys, .lastKey, .wait, .pc, .regs] s (keyPress s k))

/-- The key release (R234). Once HALT is set it is not enabled (decision D28); that it is then a step that changes nothing
is log entry 1. -/
def Obligations.KeyReleaseReleasesOneKey : Prop :=
  ∀ (s : State) (k : KeyId),
    (s.halt = none → (keyRelease s k).key k = false ∧ (∀ j, j ≠ k → (keyRelease s k).key j = s.key j) ∧
      Unchanged [.keys] s (keyRelease s k)) ∧
    (s.halt ≠ none → keyRelease s k = s)

/-- "A key-wait opcode followed by no key event leaves PC unchanged indefinitely" (R202): from a waiting machine any run
whose steps are instruction steps, timer ticks and key releases still waits, with the same PC and the same registers.
The steps lined up are the model's agenda (log entry 5). That an instruction step of a waiting machine, which R120 and
R230 say is not enabled, answers next with nothing changed is the model's choice (log entry 10). -/
def Obligations.WaitLastsUntilAKeyPress : Prop :=
  ∀ (ms : List Move) (s : State) (x : RegId), s.halt = none → s.wait = some x → s.agenda = ms →
    (∀ m ∈ ms, (∀ k, m ≠ .keyPress k) ∧ ∀ rom, m ≠ .reset rom) →
    ∀ n : Nat, ∃ t, Sys2Proof.core.run n s = .next t ∧
      Unchanged [.dt, .st, .keys, .emitted, .agenda] s t

/-! ### Reset and invariants -/

/-- The state after reset (R43): PC = 0x200, an empty stack, the font of R34 at 0 and no other byte, and zero, false or
none elsewhere (decisions D6 to D9). -/
def Obligations.ResetIsTheSpecsState : Prop :=
  State.reset.pc = 0x200 ∧ (∀ r, State.reset.getV r = 0) ∧ State.reset.i = 0 ∧ State.reset.dt = 0 ∧
  State.reset.st = 0 ∧ State.reset.stack = [] ∧ (∀ r c, pixel State.reset.fb r c = false) ∧
  (∀ k, State.reset.key k = false) ∧ State.reset.lastKey = none ∧ State.reset.wait = none ∧
  State.reset.halt = none ∧
  State.reset.mem.readBytes 0 80 =
    [0xF0, 0x90, 0x90, 0x90, 0xF0, 0x20, 0x60, 0x20, 0x20, 0x70, 0xF0, 0x10, 0xF0, 0x80, 0xF0, 0xF0, 0x10, 0xF0,
     0x10, 0xF0, 0x90, 0x90, 0xF0, 0x10, 0x10, 0xF0, 0x80, 0xF0, 0x10, 0xF0, 0xF0, 0x80, 0xF0, 0x90, 0xF0, 0xF0,
     0x10, 0x20, 0x40, 0x40] ++
    [0xF0, 0x90, 0xF0, 0x90, 0xF0, 0xF0, 0x90, 0xF0, 0x10, 0xF0, 0xF0, 0x90, 0xF0, 0x90, 0x90, 0xE0, 0x90, 0xE0,
     0x90, 0xE0, 0xF0, 0x80, 0x80, 0x80, 0xF0, 0xE0, 0x90, 0x90, 0x90, 0xE0, 0xF0, 0x80, 0xF0, 0x80, 0xF0, 0xF0,
     0x80, 0xF0, 0x80, 0x80] ∧
  ∀ a, 80 ≤ a → State.reset.mem.read a = 0

/-- R262: a ROM of more than 3584 bytes is refused; any other is copied verbatim from 0x200 on, and nothing else differs
from the machine of the empty ROM. -/
def Obligations.BootCopiesTheRomVerbatim : Prop :=
  ∀ rom : List Byte,
    (3584 < rom.length → boot rom = none) ∧
    (rom.length ≤ 3584 → ∃ s, boot rom = some s ∧
      (∀ k, k < rom.length → s.mem.read (0x200 + k) = rom.getD k 0) ∧
      (∀ a, a < 0x200 ∨ 0x200 + rom.length ≤ a → s.mem.read a = State.reset.mem.read a) ∧
      Unchanged [.mem] State.reset s)

/-- The invariants hold right after reset. -/
def Obligations.ResetMeetsTheInvariants : Prop := State.reset.Inv

/-- The invariants of R44 (a) to (e), with the memory's canonical form, are kept by every step the machine can take from
any state that meets them: an instruction, a timer tick, a key press, a key release or a reset. -/
def Obligations.EveryStepKeepsTheInvariants : Prop :=
  ∀ s t : State, s.Inv → step s = .next t → t.Inv

/-! ### The scheduler's contract -/

/-- R241: at most one Redraw leaves the scheduler in a tick, whatever the budget. -/
def Obligations.TickRedrawsAtMostOnce : Prop :=
  ∀ (n : Nat) (c : Scheduler), ((tickWith n c).2.filter isRedraw).length ≤ 1

/-- A tick of a waiting core with an empty queue runs no instruction and counts the timers down once (R240, R254). -/
def Obligations.WaitingTickOnlyCountsDown : Prop :=
  ∀ (n : Nat) (c : Scheduler), c.queue = [] → c.closing = false → c.core.wait ≠ none →
    tickWith n c = ({ c with core := timerTick c.core }, [])

/-! ### The steps that are events -/

/-- A step whose next move is an event is that event (R230 to R234, R260), at the state with the last event cleared and the
agenda moved on (log entries 5 and 6): a timer tick, a key press, a key release, and a reset with a ROM that fits, which
builds the machine of that ROM and keeps the rest of the agenda and the count of bytes drawn (log entries 3 and 5). It is
so in every state, a running machine's among them, waiting or not. -/
def Obligations.StepAppliesTheEventLinedUp : Prop :=
  ∀ s : State,
    (nextMove s = .timerTick → step s = .next (timerTick { s with emitted := none, agenda := s.agenda.tail })) ∧
    (∀ k, nextMove s = .keyPress k → step s = .next (keyPress { s with emitted := none, agenda := s.agenda.tail } k)) ∧
    (∀ k, nextMove s = .keyRelease k →
      step s = .next (keyRelease { s with emitted := none, agenda := s.agenda.tail } k)) ∧
    (∀ rom b, nextMove s = .reset rom → boot rom = some b →
      step s = .next { b with emitted := none, agenda := s.agenda.tail, draws := s.draws })
end

