-- ==== Sys2Proof/Laws/Encoding.lean ====
section
/-! SUPPORT. Laws/Encoding.lean: the bits of a word of each format (spec/30_encoding.md R91) and the fields read back from
it (R92). -/

namespace Sys2Proof

namespace Encode

theorem nnn_bit (o : BitVec 4) (a : Addr12) (j : Nat) :
    (nnn o a).getLsbD j = if j < 12 then a.getLsbD j else o.getLsbD (j - 12) :=
  BitVec.getLsbD_append

theorem xkk_bit (o : BitVec 4) (r : RegId) (k : Byte) (j : Nat) :
    (xkk o r k).getLsbD j =
      if j < 8 then k.getLsbD j else if j - 8 < 4 then (reg r).getLsbD (j - 8) else o.getLsbD (j - 8 - 4) := by
  rw [← BitVec.getLsbD_append]
  exact BitVec.getLsbD_append

theorem xyn_bit (o : BitVec 4) (r q : RegId) (n : BitVec 4) (j : Nat) :
    (xyn o r q n).getLsbD j =
      if j < 4 then n.getLsbD j else if j - 4 < 4 then (reg q).getLsbD (j - 4)
      else if j - 4 - 4 < 4 then (reg r).getLsbD (j - 4 - 4) else o.getLsbD (j - 4 - 4 - 4) := by
  rw [← BitVec.getLsbD_append, ← BitVec.getLsbD_append]
  exact BitVec.getLsbD_append

theorem reg_toNat (r : RegId) : (reg r).toNat = r.val := by
  simp [reg]

end Encode

namespace Decode

open Encode (nnn_bit xkk_bit xyn_bit reg_toNat)

@[simp] theorem op_nnn (o : BitVec 4) (a : Addr12) : op (Encode.nnn o a) = o :=
  BitVec.eq_of_getLsbD_eq fun j hj => by simp [op, nnn_bit, hj]

@[simp] theorem nnn_nnn (o : BitVec 4) (a : Addr12) : nnn (Encode.nnn o a) = a :=
  BitVec.eq_of_getLsbD_eq fun j hj => by simp [nnn, nnn_bit, hj]

@[simp] theorem op_xkk (o : BitVec 4) (r : RegId) (k : Byte) : op (Encode.xkk o r k) = o :=
  BitVec.eq_of_getLsbD_eq fun j hj => by
    simp only [op, BitVec.getLsbD_extractLsb', xkk_bit, hj]
    rw [if_neg (by omega), if_neg (by omega)]; simp; congr 1; omega

@[simp] theorem kk_xkk (o : BitVec 4) (r : RegId) (k : Byte) : kk (Encode.xkk o r k) = k :=
  BitVec.eq_of_getLsbD_eq fun j hj => by simp [kk, xkk_bit, hj]

@[simp] theorem x_xkk (o : BitVec 4) (r : RegId) (k : Byte) : x (Encode.xkk o r k) = r := by
  have h : (Encode.xkk o r k).extractLsb' 8 4 = Encode.reg r :=
    BitVec.eq_of_getLsbD_eq fun j hj => by simp [xkk_bit, hj]
  exact Fin.ext ((congrArg BitVec.toNat h).trans (reg_toNat r))

@[simp] theorem op_xyn (o : BitVec 4) (r q : RegId) (m : BitVec 4) : op (Encode.xyn o r q m) = o :=
  BitVec.eq_of_getLsbD_eq fun j hj => by
    simp only [op, BitVec.getLsbD_extractLsb', xyn_bit, hj]
    rw [if_neg (by omega), if_neg (by omega), if_neg (by omega)]; simp; congr 1; omega

@[simp] theorem n_xyn (o : BitVec 4) (r q : RegId) (m : BitVec 4) : n (Encode.xyn o r q m) = m :=
  BitVec.eq_of_getLsbD_eq fun j hj => by simp [n, xyn_bit, hj]

@[simp] theorem y_xyn (o : BitVec 4) (r q : RegId) (m : BitVec 4) : y (Encode.xyn o r q m) = q := by
  have h : (Encode.xyn o r q m).extractLsb' 4 4 = Encode.reg q :=
    BitVec.eq_of_getLsbD_eq fun j hj => by simp [xyn_bit, hj]
  exact Fin.ext ((congrArg BitVec.toNat h).trans (reg_toNat q))

@[simp] theorem x_xyn (o : BitVec 4) (r q : RegId) (m : BitVec 4) : x (Encode.xyn o r q m) = r := by
  have h : (Encode.xyn o r q m).extractLsb' 8 4 = Encode.reg r :=
    BitVec.eq_of_getLsbD_eq fun j hj => by
      simp only [BitVec.getLsbD_extractLsb', xyn_bit, hj]
      rw [if_neg (by omega), if_neg (by omega), if_pos (by omega)]; simp; congr 1; omega
  exact Fin.ext ((congrArg BitVec.toNat h).trans (reg_toNat r))

/-! A word is made of its own fields, in each of the three formats that have fields. -/

theorem reg_x (w : Word) : Encode.reg (x w) = w.extractLsb' 8 4 := by
  apply BitVec.eq_of_toNat_eq; simp [reg_toNat, x]

theorem reg_y (w : Word) : Encode.reg (y w) = w.extractLsb' 4 4 := by
  apply BitVec.eq_of_toNat_eq; simp [reg_toNat, y]

theorem word_eq_nnn (w : Word) : Encode.nnn (op w) (nnn w) = w := by
  refine BitVec.eq_of_getLsbD_eq fun j hj => ?_
  simp only [nnn_bit, op, nnn, BitVec.getLsbD_extractLsb']
  split
  · simp [*]
  · simp only [show j - 12 < 4 by omega, decide_true, Bool.true_and]; congr 1; omega

theorem word_eq_xkk (w : Word) : Encode.xkk (op w) (x w) (kk w) = w := by
  refine BitVec.eq_of_getLsbD_eq fun j hj => ?_
  simp only [xkk_bit, reg_x, op, kk, BitVec.getLsbD_extractLsb']
  split
  · simp [*]
  · split
    · simp only [*, decide_true, Bool.true_and]; congr 1; omega
    · simp only [show j - 8 - 4 < 4 by omega, decide_true, Bool.true_and]; congr 1; omega

theorem word_eq_xyn (w : Word) : Encode.xyn (op w) (x w) (y w) (n w) = w := by
  refine BitVec.eq_of_getLsbD_eq fun j hj => ?_
  simp only [xyn_bit, reg_x, reg_y, op, n, BitVec.getLsbD_extractLsb']
  split
  · simp [*]
  · split
    · simp only [*, decide_true, Bool.true_and]; congr 1; omega
    · split
      · simp only [*, decide_true, Bool.true_and]; congr 1; omega
      · simp only [show j - 4 - 4 - 4 < 4 by omega, decide_true, Bool.true_and]; congr 1; omega

/-- The family number as a quotient of the word. -/
theorem op_toNat (w : Word) : (op w).toNat = w.toNat / 4096 := by
  have := w.isLt
  simp only [op, BitVec.extractLsb'_toNat, Nat.shiftRight_eq_div_pow]
  omega

/-- The low nibble as a remainder of the word. -/
theorem n_toNat (w : Word) : (n w).toNat = w.toNat % 16 := by
  simp [n]

/-- The low byte as a remainder of the word. -/
theorem kk_toNat (w : Word) : (kk w).toNat = w.toNat % 256 := by
  simp [kk]

end Decode

/-- The two bytes of a word make the word again (R64, R90). -/
theorem wordOfBytes_bytesOfWord (w : Word) : wordOfBytes (w.extractLsb' 8 8) (w.extractLsb' 0 8) = w :=
  BitVec.eq_of_getLsbD_eq fun j hj => by
    refine BitVec.getLsbD_append.trans ?_
    simp only [BitVec.getLsbD_extractLsb']
    split
    · simp [*]
    · simp only [show j - 8 < 8 by omega, decide_true, Bool.true_and]; congr 1; omega

end Sys2Proof
end

