-- ==== Sys2Proof/Laws/Memory.lean ====
section
/-! SUPPORT. Laws/Memory.lean: the laws of memory: read after write, writes elsewhere, the canonical form, and the same for
byte lists and for the validated range operations. -/

namespace Sys2Proof.Machine

/-- A write leaves every other address alone. -/
theorem Memory.read_write_other {m : Memory} {a b : Nat} {v : Byte} (h : b ≠ a) :
    Memory.read (Memory.write m a v) b = Memory.read m b := by
  induction m with
  | nil => unfold Memory.write; split <;> simp [Memory.read, h]
  | cons c m ih =>
    obtain ⟨k, w⟩ := c
    unfold Memory.write
    split
    · split <;> simp [Memory.read, h]
    · split
      · next e => subst e; split <;> simp [Memory.read, h]
      · simp [Memory.read, ih]

/-- In canonical form, an address below every listed one reads as unlisted. -/
theorem Memory.read_of_below {m : Memory} {a : Nat} (h : m.all (fun c => decide (a < c.1)) = true) :
    Memory.read m a = Memory.initial a := by
  induction m with
  | nil => rfl
  | cons c m ih =>
    simp only [List.all_cons, Bool.and_eq_true, decide_eq_true_eq] at h
    have hne : a ≠ c.1 := by omega
    simp [Memory.read, hne, ih h.2]

theorem Memory.wf_cons {k : Nat} {v : Byte} {m : Memory} :
    Memory.wf ((k, v) :: m) = true ↔
      v ≠ Memory.initial k ∧ m.all (fun c => decide (k < c.1)) = true ∧ Memory.wf m = true := by
  simp [Memory.wf, and_assoc]

theorem Memory.all_below_trans {m : Memory} {a k : Nat} (hak : a < k) (h : m.all (fun c => decide (k < c.1)) = true) :
    m.all (fun c => decide (a < c.1)) = true := by
  simp only [List.all_eq_true, decide_eq_true_eq] at h ⊢
  exact fun c hc => lt_trans hak (h c hc)

/-- A write reads back. -/
theorem Memory.read_write_same {m : Memory} (hm : m.wf = true) (a : Nat) (v : Byte) :
    Memory.read (Memory.write m a v) a = v := by
  induction m with
  | nil => unfold Memory.write; split <;> simp_all [Memory.read]
  | cons c m ih =>
    obtain ⟨k, w⟩ := c
    obtain ⟨_, hall, hwf⟩ := Memory.wf_cons.mp hm
    unfold Memory.write
    split
    · next hlt =>
      split
      · next e =>
        rw [Memory.read, if_neg (by omega), Memory.read_of_below (Memory.all_below_trans hlt hall), e]
      · simp [Memory.read]
    · split
      · next e =>
        subst e
        split
        · next e => rw [Memory.read_of_below hall, e]
        · simp [Memory.read]
      · next hne => simp [Memory.read, hne, ih hwf]

/-- Reading after a write, both cases at once. -/
theorem Memory.read_write {m : Memory} (hm : m.wf = true) (a b : Nat) (v : Byte) :
    Memory.read (Memory.write m a v) b = if b = a then v else Memory.read m b := by
  by_cases h : b = a
  · subst h; simp [Memory.read_write_same hm]
  · simp [Memory.read_write_other h, h]

/-- Every address a write lists was listed before, or is the one written. -/
theorem Memory.mem_write {m : Memory} {a : Nat} {v : Byte} {c : Host.Cell} (h : c ∈ Memory.write m a v) :
    c ∈ m ∨ c = (a, v) := by
  induction m with
  | nil => unfold Memory.write at h; split at h <;> simp_all
  | cons d m ih =>
    obtain ⟨k, w⟩ := d
    unfold Memory.write at h
    split at h
    · split at h
      · exact .inl h
      · rcases List.mem_cons.mp h with h | h
        · exact .inr h
        · exact .inl h
    · split at h
      · split at h
        · exact .inl (List.mem_cons_of_mem _ h)
        · rcases List.mem_cons.mp h with h | h
          · exact .inr h
          · exact .inl (List.mem_cons_of_mem _ h)
      · rcases List.mem_cons.mp h with h | h
        · exact .inl (h ▸ List.mem_cons_self)
        · rcases ih h with h | h
          · exact .inl (List.mem_cons_of_mem _ h)
          · exact .inr h

/-- A write keeps the canonical form. -/
theorem Memory.wf_write {m : Memory} (hm : m.wf = true) (a : Nat) (v : Byte) : (Memory.write m a v).wf = true := by
  induction m with
  | nil => unfold Memory.write; split <;> simp_all [Memory.wf]
  | cons c m ih =>
    obtain ⟨k, w⟩ := c
    obtain ⟨hne, hall, hwf⟩ := Memory.wf_cons.mp hm
    unfold Memory.write
    split
    · next hlt =>
      split
      · exact hm
      · next e =>
        exact Memory.wf_cons.mpr ⟨e, by simp [hlt, Memory.all_below_trans hlt hall], hm⟩
    · next hnlt =>
      split
      · next e =>
        subst e
        split
        · exact hwf
        · next e => exact Memory.wf_cons.mpr ⟨e, hall, hwf⟩
      · next hane =>
        refine Memory.wf_cons.mpr ⟨hne, ?_, ih hwf⟩
        simp only [List.all_eq_true, decide_eq_true_eq] at hall ⊢
        intro c hc
        rcases Memory.mem_write hc with h | h
        · exact hall c h
        · subst h; simp only; omega

/-- A write inside MEM keeps the memory inside MEM. -/
theorem Memory.inBounds_write {m : Memory} (hm : m.inBounds) {a : Nat} (ha : a < Config.memSize) (v : Byte) :
    (Memory.write m a v).inBounds := by
  intro c hc
  rcases Memory.mem_write hc with h | h
  · exact hm c h
  · subst h; exact ha

/-! ### Byte lists -/

theorem Memory.wf_writeBytes {m : Memory} (hm : m.wf = true) (a : Nat) (vs : List Byte) :
    (Memory.writeBytes m a vs).wf = true := by
  induction vs generalizing m a with
  | nil => exact hm
  | cons v vs ih => exact ih (Memory.wf_write hm a v) (a + 1)

theorem Memory.inBounds_writeBytes {m : Memory} (hm : m.inBounds) {a : Nat} {vs : List Byte}
    (ha : a + vs.length ≤ Config.memSize) : (Memory.writeBytes m a vs).inBounds := by
  induction vs generalizing m a with
  | nil => exact hm
  | cons v vs ih =>
    simp only [List.length_cons] at ha
    exact ih (Memory.inBounds_write hm (by omega) v) (by omega)

/-- A store of a byte list leaves every address outside it alone. -/
theorem Memory.read_writeBytes_outside {m : Memory} {a b : Nat} {vs : List Byte}
    (h : b < a ∨ a + vs.length ≤ b) : Memory.read (Memory.writeBytes m a vs) b = Memory.read m b := by
  induction vs generalizing m a with
  | nil => rfl
  | cons v vs ih =>
    simp only [List.length_cons] at h
    rw [Memory.writeBytes, ih (by omega), Memory.read_write_other (by omega)]

/-- A store of a byte list reads back byte by byte. -/
theorem Memory.read_writeBytes_inside {m : Memory} (hm : m.wf = true) {a k : Nat} {vs : List Byte}
    (h : k < vs.length) : Memory.read (Memory.writeBytes m a vs) (a + k) = vs[k] := by
  induction vs generalizing m a k with
  | nil => simp at h
  | cons v vs ih =>
    cases k with
    | zero =>
      rw [Memory.writeBytes, Memory.read_writeBytes_outside (by omega)]
      simp [Memory.read_write_same hm]
    | succ k =>
      have := ih (Memory.wf_write hm a v) (a := a + 1) (k := k) (by simpa using h)
      rw [show a + (k + 1) = a + 1 + k by omega, Memory.writeBytes, this]
      simp

@[simp] theorem Memory.length_readBytes (m : Memory) (a n : Nat) : (Memory.readBytes m a n).length = n := by
  induction n generalizing a with
  | zero => rfl
  | succ n ih => simp [Memory.readBytes, ih]

@[simp] theorem Memory.getElem_readBytes (m : Memory) (a n k : Nat) (h : k < (Memory.readBytes m a n).length) :
    (Memory.readBytes m a n)[k] = Memory.read m (a + k) := by
  induction n generalizing a k with
  | zero => simp at h
  | succ n ih =>
    cases k with
    | zero => simp [Memory.readBytes]
    | succ k => simp [Memory.readBytes, ih, Nat.add_assoc, Nat.add_comm 1]

/-! ### The validated range operations (R62, R63, R68) -/

theorem rangeFatal_cases (a n : Nat) :
    (Config.memSize < a + n ∧ 0 < n ∧ rangeFatal a n = some (.memOutOfBounds (a + n - 1))) ∨
    ((n = 0 ∨ a + n ≤ Config.memSize) ∧ rangeFatal a n = none) := by
  unfold rangeFatal
  split
  · left; refine ⟨?_, ?_, rfl⟩ <;> omega
  · right; refine ⟨?_, rfl⟩; omega

theorem memReadRange_cases (s : State) (a n : Nat) :
    (Config.memSize < a + n ∧ 0 < n ∧ memReadRange s a n = .error (.memOutOfBounds (a + n - 1))) ∨
    ((n = 0 ∨ a + n ≤ Config.memSize) ∧ memReadRange s a n = .ok (s.mem.readBytes a n)) := by
  rcases rangeFatal_cases a n with ⟨h, h0, e⟩ | ⟨h, e⟩
  · exact .inl ⟨h, h0, by simp [memReadRange, e]⟩
  · exact .inr ⟨h, by simp [memReadRange, e]⟩

theorem memWriteRange_cases (s : State) (a : Nat) (vs : List Byte) :
    (Config.memSize < a + vs.length ∧ 0 < vs.length ∧
      memWriteRange s a vs = .error (.memOutOfBounds (a + vs.length - 1))) ∨
    ((vs.length = 0 ∨ a + vs.length ≤ Config.memSize) ∧
      memWriteRange s a vs = .ok { s with mem := s.mem.writeBytes a vs }) := by
  rcases rangeFatal_cases a vs.length with ⟨h, h0, e⟩ | ⟨h, e⟩
  · exact .inl ⟨h, h0, by simp [memWriteRange, e]⟩
  · exact .inr ⟨h, by simp [memWriteRange, e]⟩

/-- `MemRead(addr, 1)` is the validated read of one byte (R62). -/
theorem memReadRange_one (s : State) (a : Nat) :
    memReadRange s a 1 = if Config.memSize ≤ a then .error (.memOutOfBounds a) else .ok [s.mem.read a] := by
  unfold memReadRange rangeFatal
  by_cases h : Config.memSize ≤ a
  · simp [h]
  · simp [h, Memory.readBytes]

end Sys2Proof.Machine
end

