-- ==== Sys2Proof/Laws/State.lean ====
section
/-! SUPPORT. Laws/State.lean: what each update of the state leaves in each field, one lemma per field, and what a register
or a key reads as after an update. The normal form of a register read is `s.getV r`, of a key read `s.key k`. -/

namespace Sys2Proof.Machine

section
variable (s : State) (r : RegId) (v : Byte)

@[simp] theorem setV_i : (s.setV r v).i = s.i := rfl
@[simp] theorem setV_pc : (s.setV r v).pc = s.pc := rfl
@[simp] theorem setV_dt : (s.setV r v).dt = s.dt := rfl
@[simp] theorem setV_st : (s.setV r v).st = s.st := rfl
@[simp] theorem setV_stack : (s.setV r v).stack = s.stack := rfl
@[simp] theorem setV_mem : (s.setV r v).mem = s.mem := rfl
@[simp] theorem setV_fb : (s.setV r v).fb = s.fb := rfl
@[simp] theorem setV_keys : (s.setV r v).keys = s.keys := rfl
@[simp] theorem setV_lastKey : (s.setV r v).lastKey = s.lastKey := rfl
@[simp] theorem setV_wait : (s.setV r v).wait = s.wait := rfl
@[simp] theorem setV_halt : (s.setV r v).halt = s.halt := rfl
@[simp] theorem setV_draws : (s.setV r v).draws = s.draws := rfl
@[simp] theorem setV_emitted : (s.setV r v).emitted = s.emitted := rfl
@[simp] theorem setV_agenda : (s.setV r v).agenda = s.agenda := rfl
@[simp] theorem setV_key (k : KeyId) : (s.setV r v).key k = s.key k := rfl

@[simp] theorem regs_getElem (h : r.val < 16) : s.regs[r.val]'h = s.getV r := rfl
@[simp] theorem keys_getElem (k : KeyId) (h : k.val < Config.nKeys) : s.keys[k.val]'h = s.key k := rfl

/-- Reading a register after a write: the value written, or what the register held. -/
theorem getV_setV (q : RegId) : (s.setV r v).getV q = if q = r then v else s.getV q := by
  unfold State.getV State.setV
  rw [Vector.getElem_set]
  by_cases h : q = r
  · simp [h]
  · rw [if_neg (fun e => h (Fin.ext e.symm)), if_neg h]

@[simp] theorem getV_setV_same : (s.setV r v).getV r = v := by simp [getV_setV]

theorem getV_setV_other {q : RegId} (h : q ≠ r) : (s.setV r v).getV q = s.getV q := by simp [getV_setV, h]

end

/-- A register reads the same in two states with the same register file. -/
theorem getV_congr {s t : State} (h : s.regs = t.regs) (r : RegId) : s.getV r = t.getV r := by
  simp only [State.getV, h]

/-- A key reads the same in two states with the same keypad. -/
theorem key_congr {s t : State} (h : s.keys = t.keys) (k : KeyId) : s.key k = t.key k := by
  simp only [State.key, h]

section
variable (regs : Vector Byte 16) (i pc : Word) (dt st : Byte) (stack : List Word) (mem : Memory) (fb : Framebuffer)
  (keys : Vector Bool Config.nKeys) (lastKey : Option KeyId) (wait : Option RegId) (halt : Option FatalReason)
  (draws : Nat) (emitted : Option Output) (agenda : List Move)

@[simp] theorem getV_mk (r : RegId) :
    (State.mk regs i pc dt st stack mem fb keys lastKey wait halt draws emitted agenda).getV r = regs[r.val] := rfl

@[simp] theorem key_mk (k : KeyId) :
    (State.mk regs i pc dt st stack mem fb keys lastKey wait halt draws emitted agenda).key k = keys[k.val] := rfl

end

/-- Two states that agree on every register have the same register file. -/
theorem regs_ext {s t : State} (h : ∀ r, s.getV r = t.getV r) : s.regs = t.regs :=
  Vector.ext fun n hn => h ⟨n, hn⟩

/-! ### The outcomes (R26) -/

section
variable (s : State)

@[simp] theorem applyOutcome_advance : applyOutcome s .advance = { s with pc := s.pc + 2 } := rfl
@[simp] theorem applyOutcome_skipOne : applyOutcome s .skipOne = { s with pc := s.pc + 4 } := rfl
@[simp] theorem applyOutcome_jumpTaken (t : Word) : applyOutcome s (.jumpTaken t) = { s with pc := t } := rfl
@[simp] theorem applyOutcome_enterKeyWait (x : RegId) :
    applyOutcome s (.enterKeyWait x) = { s with wait := some x } := rfl
@[simp] theorem applyOutcome_requestRedraw :
    applyOutcome s .requestRedraw = { s with pc := s.pc + 2, emitted := some (.redraw (packed s.fb)) } := rfl
@[simp] theorem applyOutcome_fatal (f : Fatal) :
    applyOutcome s (.fatal f) = { s with halt := some f.reason, emitted := some (.shutdown f s.pc) } := rfl

@[simp] theorem finish_eq_next (o : InstrOutcome) : finish s o = .next (applyOutcome s o) := rfl

@[simp] theorem finishChecked_error {α : Type} (f : Fatal) (k : α → Host.Outcome State Fault Refusal) :
    finishChecked s (.error f) k = .next { s with halt := some f.reason, emitted := some (.shutdown f s.pc) } := rfl

@[simp] theorem finishChecked_ok {α : Type} (a : α) (k : α → Host.Outcome State Fault Refusal) :
    finishChecked s (.ok a) k = k a := rfl

@[simp] theorem beginStep_nil (h : s.agenda = []) (he : s.emitted = none) : beginStep s = s := by
  cases s; simp_all [beginStep]

end

/-- A checked end answers next `t` only by a Fatal on the state it began in, or by what follows the check. -/
theorem finishChecked_next {α : Type} {s t : State} {r : Except Fatal α} {k : α → Host.Outcome State Fault Refusal}
    (h : finishChecked s r k = .next t) :
    (∃ f, r = .error f ∧ t = raiseFatal s f) ∨ (∃ a, r = .ok a ∧ k a = .next t) := by
  cases r with
  | error f => exact .inl ⟨f, rfl, by simpa [raiseFatal, emit, eq_comm] using h⟩
  | ok a => exact .inr ⟨a, rfl, h⟩

/-- A skip advances by 4 or by 2 and does nothing else (R125). -/
theorem skipIf_eq (s : State) (c : Bool) :
    skipIf s c = .next { s with pc := s.pc + (if c then 4 else 2) } := by
  cases c <;> rfl

end Sys2Proof.Machine
end

