-- ==== Sys2Proof/Laws/Ops.lean ====
section
/-! SUPPORT. Laws/Ops.lean: one lemma per shared operation that says once everything it can do: the register writes of the
ALU, the stack, the checks, the block load, the framebuffer's pixels, the timers and the key events, and the step. -/

namespace Sys2Proof.Machine

/-! ### Register writes -/

/-- Result first, flag second: VF ends as the flag, Vx as the result when it is not VF (R143). -/
theorem getV_writeResultFlag (s : State) (x q : RegId) (r f : Byte) :
    (writeResultFlag s x r f).getV q = if q = vf then f else if q = x then r else s.getV q := by
  simp only [writeResultFlag, getV_setV]

/-- OR, AND, XOR: VF ends 0 with the reset on; with it off only Vx changes (R147). -/
theorem getV_writeLogic (b : Bool) (s : State) (x q : RegId) (r : Byte) :
    (writeLogic b s x r).getV q = if q = vf ∧ b = true then 0 else if q = x then r else s.getV q := by
  unfold writeLogic
  by_cases hq : q = vf <;> cases b <;> simp [getV_setV, hq]

/-- The registers' own update is the only change of a result and flag write. -/
theorem writeResultFlag_regs_only (s : State) (x : RegId) (r f : Byte) :
    writeResultFlag s x r f = { s with regs := (writeResultFlag s x r f).regs } := rfl

theorem writeLogic_regs_only (b : Bool) (s : State) (x : RegId) (r : Byte) :
    writeLogic b s x r = { s with regs := (writeLogic b s x r).regs } := rfl

/-- A register block write changes registers only. -/
theorem setRegBlock_regs_only (s : State) (k : Nat) (vs : List Byte) :
    setRegBlock s k vs = { s with regs := (setRegBlock s k vs).regs } := by
  induction vs generalizing s k with
  | nil => rfl
  | cons v vs ih =>
    rw [setRegBlock, ih]
    split <;> rfl

/-- The block load: register `k + j` takes byte `j`, the others keep their value (R175). -/
theorem getV_setRegBlock (s : State) (k : Nat) (vs : List Byte) (h : k + vs.length ≤ 16) (q : RegId) :
    (setRegBlock s k vs).getV q =
      if hq : k ≤ q.val ∧ q.val < k + vs.length then vs[q.val - k]'(by omega) else s.getV q := by
  induction vs generalizing s k with
  | nil =>
    have : ¬ (k ≤ q.val ∧ q.val < k + ([] : List Byte).length) := by simp
    rw [dif_neg this]; rfl
  | cons v vs ih =>
    simp only [List.length_cons] at h
    have hk : k < 16 := by omega
    rw [setRegBlock, ih _ _ (by omega), dif_pos hk]
    by_cases h1 : q.val = k
    · have hqk : q = ⟨k, hk⟩ := Fin.ext h1
      subst hqk
      rw [dif_neg (by simp), dif_pos (by simp)]
      simp
    · have hne : q ≠ ⟨k, hk⟩ := fun e => h1 (by rw [e])
      by_cases h2 : k + 1 ≤ q.val ∧ q.val < k + 1 + vs.length
      · rw [dif_pos h2, dif_pos ⟨by omega, by simp only [List.length_cons]; omega⟩]
        rw [List.getElem_cons]
        rw [dif_neg (by omega)]
        congr 1
      · rw [dif_neg h2, dif_neg (by simp only [List.length_cons]; omega), getV_setV_other _ _ _ hne]

@[simp] theorem length_regBlock (s : State) (x : RegId) : (regBlock s x).length = x.val + 1 := by
  simp [regBlock]

/-- Byte `j` of the stored block is register `j` (R174). -/
theorem getElem_regBlock (s : State) (x : RegId) (j : Nat) (hj : j < (regBlock s x).length) :
    (regBlock s x)[j] = s.getV ⟨j, by simp at hj; omega⟩ := by
  simp [regBlock, State.getV]

@[simp] theorem length_bcdDigits (v : Byte) : (bcdDigits v).length = 3 := rfl

/-! ### Checks -/

theorem push_cases (s : State) (v : Word) :
    (Config.stackDepth ≤ s.stack.length ∧ push s v = .error .stackOverflow) ∨
    (s.stack.length < Config.stackDepth ∧ push s v = .ok { s with stack := s.stack ++ [v] }) := by
  unfold push
  split
  · next h => exact .inl ⟨h, rfl⟩
  · next h => exact .inr ⟨by omega, rfl⟩

theorem pop_cases (s : State) :
    (s.stack = [] ∧ pop s = .error .stackUnderflow) ∨
    (∃ l v, s.stack = l ++ [v] ∧ pop s = .ok (v, { s with stack := l })) := by
  rcases List.eq_nil_or_concat s.stack with h | ⟨l, v, h⟩
  · exact .inl ⟨h, by simp [pop, h]⟩
  · rw [List.concat_eq_append] at h
    exact .inr ⟨l, v, h, by simp [pop, h]⟩

theorem targetFatal_cases (t : Word) :
    (t.getLsbD 0 = true ∧ targetFatal quirks.oddTarget t = some (.misalignedTarget t)) ∨
    (t.getLsbD 0 = false ∧ targetFatal quirks.oddTarget t = none) := by
  unfold targetFatal
  cases h : t.getLsbD 0 <;> simp [quirks]

theorem keyOperand_cases (v : Byte) :
    (16 ≤ v.toNat ∧ keyOperand v = .error (.badKeyIndex v)) ∨
    (∃ h : v.toNat < 16, keyOperand v = .ok ⟨v.toNat, h⟩) := by
  unfold keyOperand
  split
  · next h => exact .inr ⟨h, rfl⟩
  · next h => exact .inl ⟨by omega, rfl⟩

/-! ### The framebuffer -/

/-- Flipping a pixel changes that pixel and no other (R188). -/
theorem pixel_flipPixel (fb : Framebuffer) (r q : Fin 32) (c d : Fin 64) :
    pixel (flipPixel fb r c) q d = (pixel fb q d ^^ decide (q = r ∧ d = c)) := by
  unfold pixel flipPixel
  rw [Vector.getElem_set]
  by_cases hr : q = r
  · subst hr
    have h1 := c.isLt
    have h2 := d.isLt
    simp only [↓reduceIte, BitVec.getMsbD_xor, true_and]
    congr 1
    rw [BitVec.getMsbD_eq_getLsbD, BitVec.getLsbD_twoPow]
    by_cases hd : d = c
    · subst hd; simp; omega
    · have : d.val ≠ c.val := fun e => hd (Fin.ext e)
      simp [hd]; omega
  · rw [if_neg (fun e => hr (Fin.ext e.symm))]
    simp [hr]

/-- Two framebuffers with the same pixels are the same. -/
theorem framebuffer_ext {a b : Framebuffer} (h : ∀ r c, pixel a r c = pixel b r c) : a = b := by
  refine Vector.ext fun n hn => BitVec.eq_of_getMsbD_eq fun j hj => ?_
  exact h ⟨n, hn⟩ ⟨j, hj⟩

@[simp] theorem pixel_clear (r : Fin 32) (c : Fin 64) :
    pixel (Vector.replicate Config.fbHeight 0#64) r c = false := by
  simp [pixel]

/-! ### Events -/

theorem countDown_toNat (t : Byte) : (countDown t).toNat = t.toNat - 1 := by
  unfold countDown
  split
  · next h => subst h; rfl
  · next h =>
    have : t.toNat ≠ 0 := fun e => h (BitVec.eq_of_toNat_eq e)
    rw [BitVec.toNat_sub]
    have := t.isLt
    simp; omega

theorem boot_cases (rom : List Byte) :
    (Config.romMax < rom.length ∧ boot rom = none) ∨
    (rom.length ≤ Config.romMax ∧
      boot rom = some { State.reset with mem := State.reset.mem.writeBytes Config.entry rom }) := by
  unfold boot
  split
  · next h => exact .inl ⟨h, rfl⟩
  · next h => exact .inr ⟨by omega, rfl⟩

/-! ### The step -/

/-- A step is the move the agenda names, at the state the step begins in (R230). -/
theorem step_of_nextMove {s : State} {m : Move} (h : nextMove s = m) : step s = applyMove m (beginStep s) := by
  rw [step, h]

/-- Everything a reset step can do (R260, R262): no machine of a ROM that is too large, else the machine of the ROM with
the environment's own fields going on. -/
theorem resetMove_cases (s : State) (rom : List Byte) :
    (boot rom = none ∧ resetMove s rom = .fault .oversizedRom) ∨
    ∃ b, boot rom = some b ∧ resetMove s rom = .next { b with agenda := s.agenda, draws := s.draws } := by
  unfold resetMove
  split
  · next h => exact .inl ⟨h, rfl⟩
  · next b h => exact .inr ⟨b, h, rfl⟩

/-- The machine a ROM boots has emitted nothing (R260). -/
theorem boot_emitted {rom : List Byte} {b : State} (h : boot rom = some b) : b.emitted = none := by
  rcases boot_cases rom with ⟨_, e⟩ | ⟨_, e⟩ <;> rw [e] at h <;> cases h
  rfl

theorem instructionStep_enabled {s : State} (h : s.enabled) : instructionStep s = fetchDecodeExec s := by
  obtain ⟨h1, h2⟩ := h
  simp [instructionStep, h1, h2]

theorem fetch_cases (s : State) :
    (Config.memSize ≤ s.pc.toNat + 1 ∧ fetch s = .error .fetchOutOfBounds) ∨
    (s.pc.toNat + 1 < Config.memSize ∧
      fetch s = .ok (wordOfBytes (s.mem.read s.pc.toNat) (s.mem.read (s.pc.toNat + 1)))) := by
  unfold fetch
  split
  · next h => exact .inl ⟨h, rfl⟩
  · next h => exact .inr ⟨by omega, rfl⟩

/-- Everything an instruction step can do when it answers a next state (R120): nothing during a key wait; else a Fatal on
the state it began in, from the fetch or the decoder; else the decoded instruction. -/
theorem instructionStep_next {s t : State} (h : instructionStep s = .next t) :
    s.halt = none ∧
    ((s.wait.isSome ∧ t = s) ∨
     (s.wait = none ∧
       ((∃ f, t = raiseFatal s f) ∨
        (∃ w i, fetch s = .ok w ∧ decode w = .ok i ∧ exec i s = .next t)))) := by
  unfold instructionStep at h
  split at h
  · cases h
  · next hh =>
    refine ⟨hh, ?_⟩
    split at h
    · next hw =>
      cases h
      exact .inl ⟨by simp [hw], rfl⟩
    · next hw =>
      refine .inr ⟨hw, ?_⟩
      rcases finishChecked_next h with ⟨f, _, e⟩ | ⟨w, hf, hk⟩
      · exact .inl ⟨f, e⟩
      · revert hk
        cases hd : decode w with
        | error e => intro hk; exact .inl ⟨.unknownOpcode w, by simpa [raiseFatal, emit, eq_comm] using hk⟩
        | ok i => intro hk; exact .inr ⟨w, i, hf, hd, hk⟩

end Sys2Proof.Machine
end

