-- ==== Sys2Proof/Laws/PerInstr.lean ====
section
/-! SUPPORT. Laws/PerInstr.lean: the family InRow: every instruction's word selects the instruction's own row of the
opcode map (spec/30_encoding.md R96), one lemma per constructor. -/

namespace Sys2Proof.Laws.InRow

/-- The word of the instruction selects its row: `w & mask = match` (R96). -/
def Statement (i : Instr) : Prop := encode i &&& i.row.mask = i.row.pattern

theorem nnn_mask (o : BitVec 4) (a : Addr12) :
    Encode.nnn o a &&& 0xF000#16 = Encode.nnn o 0 := by
  refine BitVec.eq_of_getLsbD_eq fun j hj => ?_
  simp only [BitVec.getLsbD_and, Encode.nnn_bit]
  interval_cases j <;> simp

theorem xkk_mask (o : BitVec 4) (x : RegId) (kk : Byte) :
    Encode.xkk o x kk &&& 0xF000#16 = Encode.nnn o 0 := by
  refine BitVec.eq_of_getLsbD_eq fun j hj => ?_
  simp only [BitVec.getLsbD_and, Encode.nnn_bit, Encode.xkk_bit]
  interval_cases j <;> simp [Encode.reg]

theorem xyn_mask (o : BitVec 4) (x y : RegId) (n : BitVec 4) :
    Encode.xyn o x y n &&& 0xF000#16 = Encode.nnn o 0 := by
  refine BitVec.eq_of_getLsbD_eq fun j hj => ?_
  simp only [BitVec.getLsbD_and, Encode.nnn_bit, Encode.xyn_bit]
  interval_cases j <;> simp [Encode.reg]

theorem xyn_key_mask (o : BitVec 4) (x y : RegId) (n : BitVec 4) :
    Encode.xyn o x y n &&& 0xF00F#16 = Encode.xyn o 0 0 n := by
  refine BitVec.eq_of_getLsbD_eq fun j hj => ?_
  simp only [BitVec.getLsbD_and, Encode.xyn_bit]
  interval_cases j <;> simp [Encode.reg]

theorem xkk_key_mask (o : BitVec 4) (x : RegId) (kk : Byte) :
    Encode.xkk o x kk &&& 0xF0FF#16 = Encode.xkk o 0 kk := by
  refine BitVec.eq_of_getLsbD_eq fun j hj => ?_
  simp only [BitVec.getLsbD_and, Encode.xkk_bit]
  interval_cases j <;> simp [Encode.reg]

theorem cls : Statement .cls := rfl
theorem ret : Statement .ret := rfl
theorem sys (a : Addr12) : Statement (.sys a) := nnn_mask 0x0 a
theorem jp (a : Addr12) : Statement (.jp a) := nnn_mask 0x1 a
theorem call (a : Addr12) : Statement (.call a) := nnn_mask 0x2 a
theorem seByte (x : RegId) (kk : Byte) : Statement (.seByte x kk) := xkk_mask 0x3 x kk
theorem sneByte (x : RegId) (kk : Byte) : Statement (.sneByte x kk) := xkk_mask 0x4 x kk
theorem seReg (x y : RegId) : Statement (.seReg x y) := xyn_key_mask 0x5 x y 0x0
theorem ldByte (x : RegId) (kk : Byte) : Statement (.ldByte x kk) := xkk_mask 0x6 x kk
theorem addByte (x : RegId) (kk : Byte) : Statement (.addByte x kk) := xkk_mask 0x7 x kk
theorem ldReg (x y : RegId) : Statement (.ldReg x y) := xyn_key_mask 0x8 x y 0x0
theorem orReg (x y : RegId) : Statement (.orReg x y) := xyn_key_mask 0x8 x y 0x1
theorem andReg (x y : RegId) : Statement (.andReg x y) := xyn_key_mask 0x8 x y 0x2
theorem xorReg (x y : RegId) : Statement (.xorReg x y) := xyn_key_mask 0x8 x y 0x3
theorem addReg (x y : RegId) : Statement (.addReg x y) := xyn_key_mask 0x8 x y 0x4
theorem subReg (x y : RegId) : Statement (.subReg x y) := xyn_key_mask 0x8 x y 0x5
theorem shrReg (x y : RegId) : Statement (.shrReg x y) := xyn_key_mask 0x8 x y 0x6
theorem subnReg (x y : RegId) : Statement (.subnReg x y) := xyn_key_mask 0x8 x y 0x7
theorem shlReg (x y : RegId) : Statement (.shlReg x y) := xyn_key_mask 0x8 x y 0xE
theorem sneReg (x y : RegId) : Statement (.sneReg x y) := xyn_key_mask 0x9 x y 0x0
theorem ldI (a : Addr12) : Statement (.ldI a) := nnn_mask 0xA a
theorem jpV0 (a : Addr12) : Statement (.jpV0 a) := nnn_mask 0xB a
theorem rnd (x : RegId) (kk : Byte) : Statement (.rnd x kk) := xkk_mask 0xC x kk
theorem drw (x y : RegId) (n : Nibble) : Statement (.drw x y n) := xyn_mask 0xD x y n
theorem skp (x : RegId) : Statement (.skp x) := xkk_key_mask 0xE x 0x9E
theorem sknp (x : RegId) : Statement (.sknp x) := xkk_key_mask 0xE x 0xA1
theorem ldVxDt (x : RegId) : Statement (.ldVxDt x) := xkk_key_mask 0xF x 0x07
theorem ldVxK (x : RegId) : Statement (.ldVxK x) := xkk_key_mask 0xF x 0x0A
theorem ldDtVx (x : RegId) : Statement (.ldDtVx x) := xkk_key_mask 0xF x 0x15
theorem ldStVx (x : RegId) : Statement (.ldStVx x) := xkk_key_mask 0xF x 0x18
theorem addI (x : RegId) : Statement (.addI x) := xkk_key_mask 0xF x 0x1E
theorem ldF (x : RegId) : Statement (.ldF x) := xkk_key_mask 0xF x 0x29
theorem ldB (x : RegId) : Statement (.ldB x) := xkk_key_mask 0xF x 0x33
theorem ldMemVx (x : RegId) : Statement (.ldMemVx x) := xkk_key_mask 0xF x 0x55
theorem ldVxMem (x : RegId) : Statement (.ldVxMem x) := xkk_key_mask 0xF x 0x65

end Sys2Proof.Laws.InRow
end

