-- ==== Sys2Proof/Tests/Slice0.lean ====
section
/-! SUPPORT. Tests/Slice0.lean: the WellFormed smoke tests, decoding of words written out from spec/30_encoding.md R96, single
steps with the expected results of spec/95_test_vectors.md, and for every statement with hypotheses a witness that meets
them. -/

namespace Sys2Proof.Tests

open Sys2Proof.Machine

/-! ### WellFormed (R97): an ill-formed term for the one check, in both its cases -/

theorem test_wf_refuses_sys_0E0 : (Instr.sys 0x0E0).wf = false := by decide
theorem test_wf_refuses_sys_0EE : (Instr.sys 0x0EE).wf = false := by decide
theorem test_wf_takes_sys_123 : (Instr.sys 0x123).wf = true := by decide

/-! ### Decoding: every constructor by a word written out from R96 (95_test_vectors.md section 2.1) -/

theorem test_decode_family_0 : decode 0x00E0 = .ok .cls ∧ decode 0x00EE = .ok .ret ∧ decode 0x0000 = .ok (.sys 0) ∧
    decode 0x00E1 = .ok (.sys 0x0E1) ∧ decode 0x0FFF = .ok (.sys 0xFFF) := by decide
theorem test_decode_addresses : decode 0x1ABC = .ok (.jp 0xABC) ∧ decode 0x2ABC = .ok (.call 0xABC) ∧
    decode 0xAABC = .ok (.ldI 0xABC) ∧ decode 0xBABC = .ok (.jpV0 0xABC) := by decide
theorem test_decode_bytes : decode 0x3A42 = .ok (.seByte 10 0x42) ∧ decode 0x4A42 = .ok (.sneByte 10 0x42) ∧
    decode 0x6A42 = .ok (.ldByte 10 0x42) ∧ decode 0x7A42 = .ok (.addByte 10 0x42) ∧
    decode 0xCA42 = .ok (.rnd 10 0x42) := by decide
theorem test_decode_register_pairs : decode 0x5AB0 = .ok (.seReg 10 11) ∧ decode 0x9AB0 = .ok (.sneReg 10 11) ∧
    decode 0xDAB5 = .ok (.drw 10 11 5) := by decide
theorem test_decode_family_8 : decode 0x8AB0 = .ok (.ldReg 10 11) ∧ decode 0x8AB1 = .ok (.orReg 10 11) ∧
    decode 0x8AB2 = .ok (.andReg 10 11) ∧ decode 0x8AB3 = .ok (.xorReg 10 11) ∧ decode 0x8AB4 = .ok (.addReg 10 11) ∧
    decode 0x8AB5 = .ok (.subReg 10 11) ∧ decode 0x8AB6 = .ok (.shrReg 10 11) ∧ decode 0x8AB7 = .ok (.subnReg 10 11) ∧
    decode 0x8ABE = .ok (.shlReg 10 11) := by decide
theorem test_decode_family_E : decode 0xEA9E = .ok (.skp 10) ∧ decode 0xEAA1 = .ok (.sknp 10) := by decide
theorem test_decode_family_F : decode 0xFA07 = .ok (.ldVxDt 10) ∧ decode 0xFA0A = .ok (.ldVxK 10) ∧
    decode 0xFA15 = .ok (.ldDtVx 10) ∧ decode 0xFA18 = .ok (.ldStVx 10) ∧ decode 0xFA1E = .ok (.addI 10) ∧
    decode 0xFA29 = .ok (.ldF 10) ∧ decode 0xFA33 = .ok (.ldB 10) ∧ decode 0xFA55 = .ok (.ldMemVx 10) ∧
    decode 0xFA65 = .ok (.ldVxMem 10) := by decide
theorem test_decode_refuses : ∀ w ∈ [0x5001, 0x5121, 0x900F, 0x8008, 0x800F, 0xE000, 0xE09D, 0xEFA2, 0xF000, 0xF00B, 0xF030,
    0xF1FF], decode (BitVec.ofNat 16 w) = .error (.unknownOpcode (BitVec.ofNat 16 w)) := by decide
theorem test_decode_bytes_big_endian : decodeBytes [0xDA, 0xB5, 0x12] = .ok (.drw 10 11 5, [0x12]) ∧
    decodeBytes [0xDA] = .error .truncated := by decide
theorem test_table_word : decodeTableWord 16 0xD125 = some (.drw 1 2 5) ∧ decodeTableWord 16 0x8008 = none := by decide
theorem test_asm : toAsm (.ldByte 0 5) = "LD V0, 5" ∧ toAsm (.drw 10 11 5) = "DRW VA, VB, 5" := by decide

/-! ### Single steps -/

/-- The reset state with the word at 0x200, as the vectors of 95_test_vectors.md start. -/
def start (w : Nat) : State := State.reset.withFetchWord 16 w

/-- The state after one step. -/
def after (s : State) : State :=
  match step s with
  | .next t => t
  | .fault _ => s
  | .refused _ => s

/-- The reset state with the word at 0x200 and two registers set. -/
def start2 (w : Nat) (a : RegId) (u : Byte) (b : RegId) (v : Byte) : State := ((start w).setV a u).setV b v

-- 95_test_vectors.md section 2.2
theorem test_sys : (after (start 0x0FFF)).pc = 0x202 := by decide
theorem test_jp : (after (start 0x1ABC)).pc = 0xABC := by decide
theorem test_jp_odd : (after (start 0x1201)).halt = some .misalignedTarget ∧ (after (start 0x1201)).pc = 0x200 := by decide
theorem test_call : (after (start 0x2300)).pc = 0x300 ∧ (after (start 0x2300)).stack = [0x202] := by decide
theorem test_call_odd_before_full :
    (after { start 0x2301 with stack := List.replicate 16 0x202 }).halt = some .misalignedTarget := by decide
theorem test_ret : (after { start 0x00EE with stack := [0x300, 0xFFE] }).pc = 0xFFE ∧
    (after { start 0x00EE with stack := [0x300, 0xFFE] }).stack = [0x300] := by decide
theorem test_ret_empty : (after (start 0x00EE)).emitted = some (.shutdown .stackUnderflow 0x200) := by decide
theorem test_se_byte : (after ((start 0x3A42).setV 10 0x42)).pc = 0x204 ∧
    (after ((start 0x3A42).setV 10 0x43)).pc = 0x202 := by decide
theorem test_sne_byte : (after ((start 0x4A42).setV 10 0x42)).pc = 0x202 ∧
    (after ((start 0x4A42).setV 10 0x43)).pc = 0x204 := by decide
theorem test_se_reg : (after (start2 0x5120 1 7 2 7)).pc = 0x204 ∧ (after (start2 0x5120 1 7 2 8)).pc = 0x202 := by decide
theorem test_sne_reg : (after (start2 0x9120 1 7 2 7)).pc = 0x202 ∧ (after (start2 0x9120 1 7 2 8)).pc = 0x204 := by decide
theorem test_jp_v0 : (after ((start 0xBFFE).setV 0 0xFE)).pc = 0x10FC := by decide
theorem test_jp_v0_odd : (after ((start 0xB300).setV 0 0x11)).halt = some .misalignedTarget := by decide

-- 95_test_vectors.md section 2.3
theorem test_ld_byte : (after (start 0x6F12)).getV 15 = 0x12 := by decide
theorem test_add_byte_wraps : (after ((start 0x7A01).setV 10 0xFF)).getV 10 = 0 ∧
    (after ((start 0x7A01).setV 10 0xFF)).getV 15 = 0 := by decide
theorem test_ld_reg : (after (start2 0x8120 1 0x11 2 0x37)).getV 1 = 0x37 ∧
    (after (start2 0x8120 1 0x11 2 0x37)).getV 2 = 0x37 := by decide
theorem test_or : (after (start2 0x8121 1 0x0F 2 0xF0)).getV 1 = 0xFF := by decide
theorem test_and : (after (start2 0x8122 1 0x3C 2 0x0F)).getV 1 = 0x0C := by decide
theorem test_xor : (after (start2 0x8123 1 0xFF 2 0x0F)).getV 1 = 0xF0 := by decide
theorem test_logic_vf_both_ways : (writeLogic true ((start 0).setV 15 0x77) 1 0xFF).getV 15 = 0 ∧
    (writeLogic false ((start 0).setV 15 0x77) 1 0xFF).getV 15 = 0x77 ∧
    (writeLogic true (start 0) 15 0xFF).getV 15 = 0 ∧ (writeLogic false (start 0) 15 0xFF).getV 15 = 0xFF := by decide
theorem test_add_carry : (after (start2 0x8124 1 0xC8 2 0x64)).getV 1 = 0x2C ∧
    (after (start2 0x8124 1 0xC8 2 0x64)).getV 15 = 1 := by decide
theorem test_add_vf_operand : (after (start2 0x8F14 15 1 1 1)).getV 15 = 0 := by decide
theorem test_sub_borrow : (after (start2 0x8125 1 5 2 0x0A)).getV 1 = 0xFB ∧
    (after (start2 0x8125 1 5 2 0x0A)).getV 15 = 0 := by decide
theorem test_sub_equal : (after (start2 0x8125 1 0x33 2 0x33)).getV 1 = 0 ∧
    (after (start2 0x8125 1 0x33 2 0x33)).getV 15 = 1 := by decide
theorem test_subn : (after (start2 0x8127 1 0x0A 2 5)).getV 1 = 0xFB ∧
    (after (start2 0x8127 1 0x0A 2 5)).getV 15 = 0 := by decide
theorem test_shr_vy : (after (start2 0x8126 1 0xAA 2 5)).getV 1 = 2 ∧ (after (start2 0x8126 1 0xAA 2 5)).getV 15 = 1 := by
  decide
theorem test_shl_vy : (after (start2 0x812E 1 0x40 2 0x7F)).getV 1 = 0xFE ∧
    (after (start2 0x812E 1 0x40 2 0x7F)).getV 15 = 0 := by decide
theorem test_rnd_mask_zero : ((after (start 0xC300)).draws, (after (start 0xC300)).pc) = (1, 0x202) := by decide

-- 95_test_vectors.md section 2.4
theorem test_ld_i : (after (start 0xA123)).i = 0x123 := by decide
theorem test_add_i_wraps : (after { (start2 0xF31E 3 2 15 0x55) with i := 0xFFFF }).i = 1 ∧
    (after { (start2 0xF31E 3 2 15 0x55) with i := 0xFFFF }).getV 15 = 0x55 := by decide
theorem test_ld_f_low_nibble : (after ((start 0xF529).setV 5 0x1A)).i = 0x32 ∧ glyphAddress 0x50 0x0A = 0x82 := by decide
theorem test_bcd_top_of_memory : (after { (start 0xF733).setV 7 0x7B with i := 0xFFD }).mem.readBytes 0xFFD 3 =
    [1, 2, 3] := by decide
theorem test_bcd_out_of_bounds :
    (after { start 0xF733 with i := 0xFFFF }).emitted = some (.shutdown (.memOutOfBounds 0x10001) 0x200) := by decide
theorem test_block_store : (after { start2 0xF155 0 0x6A 1 0xBC with i := 0x202 }).mem.readBytes 0x202 2 = [0x6A, 0xBC] ∧
    (after { start2 0xF155 0 0x6A 1 0xBC with i := 0x202 }).i = 0x204 := by decide
theorem test_block_store_out_of_bounds : (after { start 0xFF55 with i := 0xFF1 }).halt = some .memOutOfBounds ∧
    (after { start 0xFF55 with i := 0xFF1 }).i = 0xFF1 := by decide
theorem test_block_load_font : (after (start 0xF265)).getV 2 = 0x90 ∧ (after (start 0xF265)).getV 3 = 0 ∧
    (after (start 0xF265)).i = 3 := by decide
theorem test_block_load_out_of_bounds : (after { start 0xF365 with i := 0xFFD }).halt = some .memOutOfBounds := by decide

-- 95_test_vectors.md section 2.5
theorem test_cls : (after { start 0x00E0 with fb := flipPixel State.reset.fb 3 3 }).fb = State.reset.fb := by decide
theorem test_cls_redraws : (after (start 0x00E0)).emitted = some (.redraw (packed State.reset.fb)) := rfl
theorem test_draw_splits_at_the_right_edge :
    (plotSprite false State.reset.fb 0x7C 0x25 [0xFF]).fb = State.reset.fb.set 5 0xF00000000000000F ∧
    (plotSprite true State.reset.fb 0x7C 0x25 [0xFF]).fb = State.reset.fb.set 5 0x000000000000000F := by decide
theorem test_draw_collision : (after { start2 0xD121 1 2 2 0 with i := 0, fb := flipPixel State.reset.fb 0 4 }).getV 15 = 1 ∧
    packedByte (after { start2 0xD121 1 2 2 0 with i := 0, fb := flipPixel State.reset.fb 0 4 }).fb 0 0 = 0x34 := by decide

-- 95_test_vectors.md section 2.6
theorem test_skp : (after { (start 0xE39E).setV 3 7 with keys := State.reset.keys.set 7 true }).pc = 0x204 ∧
    (after ((start 0xE39E).setV 3 7)).pc = 0x202 := by decide
theorem test_sknp : (after (start 0xE3A1)).pc = 0x204 ∧
    (after ((start 0xE3A1).setV 3 0xFF)).halt = some .badKeyIndex := by decide
theorem test_key_wait : (after (start 0xF30A)).wait = some 3 ∧ (after (start 0xF30A)).pc = 0x200 := by decide
theorem test_ld_vx_dt : (after { start 0xF307 with dt := 0x2A }).getV 3 = 0x2A := by decide
theorem test_ld_dt_vx : (after ((start 0xF315).setV 3 0x3C)).dt = 0x3C := by decide
theorem test_ld_st_vx : (after ((start 0xF318).setV 3 0x3C)).st = 0x3C ∧
    (after ((start 0xF318).setV 3 0x3C)).emitted = some (.tone 0x3C) := by decide
theorem test_ld_st_zero_no_tone : (after { start 0xF318 with st := 5 }).st = 0 ∧
    (after { start 0xF318 with st := 5 }).emitted = none := by decide

-- 95_test_vectors.md sections 2.7, 4.1, 4.2
theorem test_unknown_opcode : (after (start 0x8008)).emitted = some (.shutdown (.unknownOpcode 0x8008) 0x200) ∧
    FatalReason.code .unknownOpcode = 1 := by decide
theorem test_fetch_past_memory : (after { start 0 with pc := 0x1000 }).halt = some .fetchOutOfBounds := by decide
theorem test_timers_saturate : (timerTick { start 0 with dt := 2, st := 0 }).dt = 1 ∧
    (timerTick { start 0 with dt := 2, st := 0 }).st = 0 := by decide
theorem test_press_resolves : (after { start 0 with wait := some 15, pc := 0x240, agenda := [.keyPress 12] }).getV 15 = 12 ∧
    (after { start 0 with wait := some 15, pc := 0x240, agenda := [.keyPress 12] }).pc = 0x242 := by decide
theorem test_held_key_does_not_resolve :
    (after { start 0 with wait := some 6, keys := State.reset.keys.set 5 true, agenda := [.keyPress 5] }).wait = some 6 := by
  decide
theorem test_boot_rom : ((boot [0x60, 0x05]).map fun s => s.mem.readBytes 0x200 3) = some [0x60, 0x05, 0] := by decide

-- 95_test_vectors.md section 4.3: the ROM of S5 with a budget of 4
theorem test_scheduler_key_wait : ((tickWith 4 ⟨start 0xF30A, [], false, false⟩).1.core.wait,
    (tickWith 4 ⟨start 0xF30A, [], false, false⟩).2) = (some 3, []) := by decide

/-! ### Witnesses: for every statement with hypotheses, a state and operands that meet them together, clause by clause at
the boundaries of their ranges -/

theorem witness_DecodeOfEncode : (Instr.sys 0x0EF).wf = true ∧ (Instr.drw 15 15 15).wf = true := by decide
theorem witness_EncodeOfDecode : decode 0xFF65 = .ok (.ldVxMem 15) ∧ decode 0x0000 = .ok (.sys 0) := by decide
theorem witness_FamilyZero : (0x0FFF : Word).toNat < 0x1000 ∧ (0x00E0 : Word).toNat < 0x1000 := by decide

/-- The last place an instruction can be fetched from, and the first it cannot. -/
def startAt (pc w : Nat) : State := { State.reset with pc := BitVec.ofNat 16 pc }.withFetchWord 16 w

theorem witness_StepRuns : (startAt 0xFFE 0x6A42).enabled ∧ nextMove (startAt 0xFFE 0x6A42) = .instruction ∧
    (startAt 0xFFE 0x6A42).pc.toNat + 1 < 4096 ∧
    decode (wordOfBytes ((startAt 0xFFE 0x6A42).mem.read 0xFFE) ((startAt 0xFFE 0x6A42).mem.read 0xFFF)) =
      .ok (.ldByte 10 0x42) := ⟨⟨rfl, rfl⟩, rfl, by decide, by decide⟩
theorem witness_FetchFatal : { State.reset with pc := 0xFFF }.enabled ∧ 4096 ≤ (0xFFF : Word).toNat + 1 :=
  ⟨⟨rfl, rfl⟩, by decide⟩
theorem witness_DecodeFatal : (startAt 0xFFE 0x8008).enabled ∧ (startAt 0xFFE 0x8008).pc.toNat + 1 < 4096 ∧
    (0x8008 : Word).toNat = ((startAt 0xFFE 0x8008).mem.read 0xFFE).toNat * 256 +
      ((startAt 0xFFE 0x8008).mem.read 0xFFF).toNat ∧ ∀ i, decode 0x8008 ≠ .ok i :=
  ⟨⟨rfl, rfl⟩, by decide, by decide, fun _ h => nomatch (show decode 0x8008 = .error (.unknownOpcode 0x8008) by decide).symm.trans h⟩
theorem witness_FetchIsBigEndian : (startAt 0xFFE 0x1200).pc.toNat + 1 < 4096 ∧
    4096 ≤ (0xFFF : Word).toNat + 1 := by decide
theorem witness_PlacedWord : State.reset.mem.wf = true ∧ State.reset.pc.toNat + 1 < 4096 ∧
    decode (BitVec.ofNat 16 65381) = .ok (.ldVxMem 15) := by decide
theorem witness_FatalEntry : ∃ t, instructionStep (start 0x00EE) = .next t ∧ t.halt ≠ (start 0x00EE).halt :=
  ⟨_, rfl, by decide⟩

/-- A stopped machine with one step lined up. -/
def stopped (m : Move) : State := { State.reset with halt := some .badKeyIndex, agenda := [m] }

theorem witness_OnlyReset_instruction : (stopped .instruction).halt = some .badKeyIndex ∧
    nextMove (stopped .instruction) = .instruction := by decide
theorem witness_OnlyReset_events : nextMove (stopped .timerTick) = .timerTick ∧
    nextMove (stopped (.keyPress 15)) = .keyPress 15 ∧ nextMove (stopped (.keyRelease 0)) = .keyRelease 0 := by decide
theorem witness_OnlyReset_reset : nextMove (stopped (.reset [0x60, 0x05])) = .reset [0x60, 0x05] ∧
    [0x60#8, 0x05#8].length ≤ 3584 := by decide
theorem witness_StepFaults_rom : nextMove (stopped (.reset (List.replicate 3585 0#8))) = .reset (List.replicate 3585 0#8) ∧
    3584 < (List.replicate 3585 0#8).length := ⟨rfl, by rw [List.length_replicate]; decide⟩
theorem witness_StepFaults_halted : step (stopped .instruction) = .fault (.halted .badKeyIndex) := rfl

theorem witness_InstructionsChange : ∃ t, exec (.ldMemVx 15) (start 0) = .next t ∧ t.i = 16 := ⟨_, rfl, by decide⟩
theorem witness_InstructionsWrite : (∃ t, exec (.ldVxMem 3) (start 0) = .next t) ∧ mayWrite (.ldVxMem 3) 4 = false :=
  ⟨⟨_, rfl⟩, by decide⟩
theorem witness_NoST : (∃ t, exec (.ldVxDt 3) (start 0) = .next t) ∧ Part.st ∉ mayChange (.ldVxDt 3) ∧
    Part.st ∈ mayChange (.ldStVx 3) := ⟨⟨_, rfl⟩, by decide, by decide⟩

theorem witness_Ret : (start 0).stack = [] ∧
    { start 0 with stack := [0x300, 0x1000] }.stack = [0x300] ++ [(0x1000 : Word)] := ⟨rfl, rfl⟩
theorem witness_Jump : (0xFFE : Addr12).toNat % 2 = 0 ∧ (0xFFF : Addr12).toNat % 2 = 1 := by decide
theorem witness_Call : { start 0 with stack := List.replicate 15 0x202 }.stack.length < 16 ∧
    16 ≤ { start 0 with stack := List.replicate 16 0x202 }.stack.length ∧ (0x300 : Addr12).toNat % 2 = 0 ∧
    (0x301 : Addr12).toNat % 2 = 1 := by decide
theorem witness_RetAfterCall : (0x000 : Addr12).toNat % 2 = 0 ∧ (start 0).stack.length < 16 := by decide
theorem witness_IndexedJump : ((0xFFF : Addr12).toNat + (((start 0).setV 0 0xFF).getV 0).toNat) % 2 = 0 ∧
    ((0xFFF : Addr12).toNat + ((start 0).getV 0).toNat) % 2 = 1 := by decide

theorem witness_not_VF : (0 : RegId) ≠ 15 ∧ (14 : RegId) ≠ 15 := by decide
theorem witness_Logic (s : State) : (Instr.orReg 15 15, s.getV 15 ||| s.getV 15) ∈
    [(Instr.orReg 15 15, s.getV 15 ||| s.getV 15), (Instr.andReg 15 15, s.getV 15 &&& s.getV 15),
     (Instr.xorReg 15 15, s.getV 15 ^^^ s.getV 15)] := List.mem_cons_self

/-- The reset state with I at `a`. -/
def withI (a : Nat) : State := { State.reset with i := BitVec.ofNat 16 a }

theorem witness_Bcd : ((withI 0xFFD).i.toNat + 2 < 4096 ∧ (withI 0xFFD).mem.wf = true) ∧ 4096 ≤ (withI 0xFFE).i.toNat + 2 := by
  decide
theorem witness_Blocks : ((withI 0xFF0).i.toNat + (15 : RegId).val < 4096 ∧ (withI 0xFF0).mem.wf = true) ∧
    4096 ≤ (withI 0xFF1).i.toNat + (15 : RegId).val ∧ 4096 ≤ (withI 0x1000).i.toNat + (0 : RegId).val := by decide
theorem witness_Blocks_registers : (15 : RegId).val ≤ (15 : RegId).val ∧ (14 : RegId).val < (15 : RegId).val := by decide
theorem witness_StoreIsSeen : (withI 0xFFE).mem.wf = true ∧
    { withI 0xFFE with pc := 0xFFC }.i = { withI 0xFFE with pc := 0xFFC }.pc + 2 ∧ (0xFFC : Word).toNat + 3 < 4096 := by decide
theorem witness_Canonical : Memory.wf [(0, 0x11), (0x200, 0x60)] = true ∧
    ∀ a, Memory.read [(0, 0x11), (0x200, 0x60)] a = Memory.read [(0, 0x11), (0x200, 0x60)] a := ⟨by decide, fun _ => rfl⟩

theorem witness_Draw_range : ((0 : Nibble).toNat = 0 ∨ (withI 0xFFFF).i.toNat + (0 : Nibble).toNat ≤ 4096) ∧
    ((15 : Nibble).toNat = 0 ∨ (withI 0xFF1).i.toNat + (15 : Nibble).toNat ≤ 4096) := by decide
theorem witness_Draw_covered (clip : Bool) : SpriteCovers clip (withI 0) 1 2 5 0 0 :=
  ⟨0, 0, by decide, by decide, by decide, by decide, .inl (by decide)⟩
theorem witness_Draw_wraps : SpriteCovers false ((withI 0).setV 1 63) 1 2 5 0 0 :=
  ⟨0, 1, by decide, by decide, by decide, by decide, .inr (by decide)⟩
theorem witness_Draw_collides (clip : Bool) : ∃ r c, pixel { withI 0 with fb := flipPixel State.reset.fb 0 0 }.fb r c = true ∧
    SpriteCovers clip { withI 0 with fb := flipPixel State.reset.fb 0 0 } 1 2 5 r c :=
  ⟨0, 0, by decide, 0, 0, by decide, by decide, by decide, by decide, .inl (by decide)⟩
/-- At the right edge column 63 is covered when clipping and column 0 is not (R192, R191). -/
theorem witness_Draw_clips : SpriteCovers true ((withI 0).setV 1 63) 1 2 1 0 63 ∧
    ¬ SpriteCovers true ((withI 0).setV 1 63) 1 2 1 0 0 := by
  refine ⟨⟨0, 0, by decide, by decide, by decide, by decide, .inl (by decide)⟩, ?_⟩
  rintro ⟨k, j, _, _, _, _, h | h⟩
  · rw [show (((withI 0).setV 1 63).getV 1).toNat % 64 = 63 by decide] at h
    exact absurd h (by simp)
  · exact absurd h.1 (by decide)
theorem witness_Draw_empty (clip : Bool) (b : Bool) :
    ¬ ∃ r c, pixel (withI 0).fb r c = b ∧ SpriteCovers clip (withI 0) 1 2 0 r c := by
  rintro ⟨_, _, _, k, _, hk, _⟩
  exact absurd hk (Nat.not_lt_zero k)
theorem witness_DrawTwice_lights : ∃ r c, pixel (withI 0).fb r c = false ∧ SpriteCovers false (withI 0) 1 2 5 r c :=
  ⟨0, 0, by decide, witness_Draw_covered false⟩
theorem witness_DrawTwice_same_place (v : Byte) : (((withI 0).setV 15 v).getV 1).toNat % 64 = ((withI 0).getV 1).toNat % 64 ∧
    (((withI 0).setV 15 v).getV 2).toNat % 32 = ((withI 0).getV 2).toNat % 32 := ⟨rfl, rfl⟩
theorem witness_DrawOutside : 0 < (15 : Nibble).toNat ∧ 4096 < (withI 0xFF2).i.toNat + (15 : Nibble).toNat := by decide

theorem witness_KeySkips : (((start 0).setV 3 15).getV 3).toNat = (15 : KeyId).val ∧
    15 < (((start 0).setV 3 16).getV 3).toNat := by decide
theorem witness_TimerTick : (start 0).halt = none ∧ (stopped .timerTick).halt ≠ none := by decide

/-- A machine that waits for VF at the last place it can. -/
def waiting (ms : List Move) : State := { State.reset with pc := 0xFFE, wait := some 15, agenda := ms }

theorem witness_KeyPress : ((stopped .timerTick).halt ≠ none ∨ (stopped .timerTick).key 15 = true) ∧
    { waiting [] with keys := State.reset.keys.set 15 true }.key 15 = true ∧
    ((start 0).halt = none ∧ (start 0).key 15 = false ∧ (start 0).wait = none) ∧
    ((waiting []).halt = none ∧ (waiting []).key 15 = false ∧ (waiting []).wait = some 15) ∧ (14 : KeyId) ≠ 15 := by decide
theorem witness_StepApplies_events : nextMove (waiting [.timerTick]) = .timerTick ∧
    nextMove (waiting [.keyPress 15]) = .keyPress 15 ∧ nextMove (waiting [.keyRelease 0]) = .keyRelease 0 ∧
    (waiting [.timerTick]).halt = none := by decide
theorem witness_StepApplies_reset : nextMove (waiting [.reset [0x60, 0x05], .timerTick]) = .reset [0x60, 0x05] ∧
    ∃ b, boot [0x60, 0x05] = some b := ⟨rfl, _, rfl⟩
theorem witness_KeyRelease : (waiting []).halt = none ∧ (stopped .timerTick).halt ≠ none ∧ (14 : KeyId) ≠ 15 := by decide
theorem witness_WaitLasts : (waiting [.timerTick, .keyRelease 3]).halt = none ∧
    (waiting [.timerTick, .keyRelease 3]).wait = some 15 ∧
    ∀ m ∈ [Move.timerTick, .keyRelease 3], (∀ k, m ≠ .keyPress k) ∧ ∀ rom, m ≠ .reset rom := by
  refine ⟨rfl, rfl, ?_⟩
  simp
theorem witness_Boot : (List.replicate 3584 0x11#8).length ≤ 3584 ∧ 3584 < (List.replicate 3585 0x11#8).length := by
  rw [List.length_replicate, List.length_replicate]; decide

theorem witness_EveryStep_inv_running : (start 0x1202).Inv where
  memWf := by decide
  memInBounds := by unfold Memory.inBounds; decide
  stackDepth := by decide
  stackEntries := fun a h => absurd (show a ∈ ([] : List Word) from h) List.not_mem_nil
  pcEven := by decide
  pcRange := by decide
  waitFetched := by decide
  haltNotWaiting := by decide
theorem witness_EveryStep_running : ∃ t, step (start 0x1202) = .next t := ⟨_, rfl⟩
theorem witness_EveryStep_inv_waiting : (waiting [.keyPress 5]).Inv where
  memWf := by decide
  memInBounds := by unfold Memory.inBounds; decide
  stackDepth := by decide
  stackEntries := fun a h => absurd (show a ∈ ([] : List Word) from h) List.not_mem_nil
  pcEven := by decide
  pcRange := by decide
  waitFetched := by decide
  haltNotWaiting := by decide
theorem witness_EveryStep_waiting : ∃ t, step (waiting [.keyPress 5]) = .next t := ⟨_, rfl⟩
theorem witness_WaitingTick : (Scheduler.mk (waiting []) [] false false).queue = [] ∧
    (Scheduler.mk (waiting []) [] false false).closing = false ∧
    (Scheduler.mk (waiting []) [] false false).core.wait ≠ none := by decide

end Sys2Proof.Tests
end

section
/-! PROOFS. The instruction fetch (R64): the number the two bytes of a word make, the fetch on each side of its bound, and
the step whose fetch raises a Fatal. -/

namespace Sys2Proof.Machine

/-- The number two bytes make, the byte at the lower address the more significant (R64). -/
theorem toNat_wordOfBytes (hi lo : Byte) : (wordOfBytes hi lo).toNat = hi.toNat * 256 + lo.toNat := by
  rw [wordOfBytes, BitVec.toNat_append, ← Nat.shiftLeft_add_eq_or_of_lt lo.isLt, Nat.shiftLeft_eq]

theorem fetch_outOfBounds {s : State} (h : Config.memSize ≤ s.pc.toNat + 1) :
    fetch s = .error .fetchOutOfBounds := by
  rcases fetch_cases s with ⟨_, e⟩ | ⟨hlt, _⟩
  · exact e
  · omega

theorem fetch_inBounds {s : State} (h : s.pc.toNat + 1 < Config.memSize) :
    fetch s = .ok (wordOfBytes (s.mem.read s.pc.toNat) (s.mem.read (s.pc.toNat + 1))) := by
  rcases fetch_cases s with ⟨hge, _⟩ | ⟨_, e⟩
  · omega
  · exact e

/-- An enabled step whose fetch raises a Fatal is that Fatal's entry, before anything is decoded (R221, R223). -/
theorem instructionStep_fetch_error {s : State} {f : Fatal} (hs : s.enabled) (hf : fetch s = .error f) :
    instructionStep s = .next (raiseFatal s f) := by
  rw [instructionStep_enabled hs, fetchDecodeExec, hf]
  rfl

/-- Settles O10: past the bound the step enters the Fatal of the fetch; below it the word is the number its two bytes
make. -/
theorem fetchIsBigEndianAndBounded : Obligations.FetchIsBigEndianAndBounded := by
  intro s
  constructor
  · intro hout
    have hfetch : fetch s = .error .fetchOutOfBounds := fetch_outOfBounds hout
    exact ⟨hfetch, fun hs => ⟨_, instructionStep_fetch_error hs hfetch, rfl, rfl⟩⟩
  · intro hin
    exact ⟨_, fetch_inBounds hin, toNat_wordOfBytes _ _⟩

end Sys2Proof.Machine
end

section
/-! PROOFS. Family 0 of the decoder and its no-op (R97, R121): the decoding of a word below 0x1000, the address field as a
truncation, the frame of a write to PC alone, and what SYS does. -/

namespace Sys2Proof

/-- The address field is the word cut to its low 12 bits (R92). -/
theorem Decode.nnn_eq_setWidth (w : Word) : Decode.nnn w = w.setWidth 12 :=
  (BitVec.setWidth_eq_extractLsb' (by decide)).symm

/-- The words whose family number is 0 are those below 0x1000. -/
theorem Decode.op_toNat_eq_zero {w : Word} (h : w.toNat < 0x1000) : (Decode.op w).toNat = 0 := by
  rw [Decode.op_toNat, Nat.div_eq_of_lt h]

/-- Every word of family 0 decodes, to the instruction its whole word selects (R94). -/
theorem decode_eq_family0 {w : Word} (h : w.toNat < 0x1000) : decode w = .ok (Decode.family0 w) := by
  rw [decode, Decode.op_toNat_eq_zero h]
  rfl

namespace Machine

/-- A write to PC leaves every other part of the state alone. -/
theorem unchanged_set_pc (s : State) (v : Word) : Unchanged [.pc] s { s with pc := v } := by
  intro p hp
  cases p with
  | pc => exact absurd List.mem_cons_self hp
  | regs | mem | keys => exact fun _ => rfl
  | fb => exact fun _ _ => rfl
  | _ => exact rfl

/-- SYS is its outcome Advance, whatever its operand (R121). -/
theorem exec_sys (nnn : Addr12) (s : State) : exec (.sys nnn) s = .next { s with pc := s.pc + 2 } := rfl

/-- Settles O7: a word below 0x1000 is of family 0, whose address field is the word's low 12 bits; SYS writes PC alone. -/
theorem familyZeroIsNoOpButClsAndRet : Obligations.FamilyZeroIsNoOpButClsAndRet := by
  constructor
  · intro w hw
    rw [decode_eq_family0 hw, Decode.family0, Decode.nnn_eq_setWidth]
    rfl
  · intro nnn s
    exact ⟨_, exec_sys nnn s, rfl, unchanged_set_pc s _⟩

end Machine
end Sys2Proof
end

section
/-! PROOFS. The four compare-and-skip instructions (R125 to R128): each is a skip on a comparison, what a skip does to PC
and leaves unchanged, and the skip on equal and on different operands. -/

namespace Sys2Proof.Machine

theorem exec_seByte (x : RegId) (kk : Byte) (s : State) :
    exec (.seByte x kk) s = skipIf s (s.getV x == kk) := rfl

theorem exec_sneByte (x : RegId) (kk : Byte) (s : State) :
    exec (.sneByte x kk) s = skipIf s (s.getV x != kk) := rfl

theorem exec_seReg (x y : RegId) (s : State) :
    exec (.seReg x y) s = skipIf s (s.getV x == s.getV y) := rfl

theorem exec_sneReg (x y : RegId) (s : State) :
    exec (.sneReg x y) s = skipIf s (s.getV x != s.getV y) := rfl

/-- A skip always completes, and PC is the one part it writes. -/
theorem skipIf_next (s : State) (c : Bool) :
    ∃ t, skipIf s c = .next t ∧ t.pc = s.pc + (if c then 4 else 2) ∧ Unchanged [.pc] s t :=
  ⟨_, skipIf_eq s c, rfl, unchanged_set_pc s _⟩

theorem skipIf_beq_next (s : State) (a b : Byte) :
    ∃ t, skipIf s (a == b) = .next t ∧ t.pc = s.pc + (if a = b then 4 else 2) ∧ Unchanged [.pc] s t := by
  simpa only [beq_iff_eq] using skipIf_next s (a == b)

theorem skipIf_bne_next (s : State) (a b : Byte) :
    ∃ t, skipIf s (a != b) = .next t ∧ t.pc = s.pc + (if a = b then 2 else 4) ∧ Unchanged [.pc] s t := by
  simpa only [bne_iff_ne, ne_eq, ite_not] using skipIf_next s (a != b)

/-- Settles O23: SE is the skip on equal operands and SNE the skip on different ones, with a byte or a second register. -/
theorem skipsFollowTheirCondition : Obligations.SkipsFollowTheirCondition := by
  intro x y kk s
  rw [exec_seByte, exec_sneByte, exec_seReg, exec_sneReg]
  exact ⟨skipIf_beq_next s _ _, skipIf_bne_next s _ _, skipIf_beq_next s _ _, skipIf_bne_next s _ _⟩

end Sys2Proof.Machine
end

section
/-! PROOFS. Loads of a general register (R140, R146): the frame of a write to the registers and PC, what an instruction
that stores one value in Vx and advances does, and the two loads as that store. -/

namespace Sys2Proof.Machine

/-- A write to the general registers and PC leaves every other part of the state alone. -/
theorem unchanged_set_regs_pc (s : State) (rs : Vector Byte 16) (v : Word) :
    Unchanged [.regs, .pc] s { s with regs := rs, pc := v } := by
  intro p hp
  cases p with
  | regs => exact absurd List.mem_cons_self hp
  | pc => exact absurd (List.mem_cons_of_mem _ List.mem_cons_self) hp
  | mem | keys => exact fun _ => rfl
  | fb => exact fun _ _ => rfl
  | _ => exact rfl

theorem regsKept_setV (s : State) (x : RegId) (v : Byte) : RegsKept [x] s (s.setV x v) :=
  fun _ hq => getV_setV_other s x v (List.ne_of_not_mem_cons hq)

/-- A store of one value in Vx that advances: Vx takes the value, and the other registers and parts stay. -/
theorem finish_setV_advance_next (s : State) (x : RegId) (v : Byte) :
    ∃ t, finish (s.setV x v) .advance = .next t ∧ t.getV x = v ∧ RegsKept [x] s t ∧ t.pc = s.pc + 2 ∧
      Unchanged [.regs, .pc] s t :=
  ⟨_, finish_eq_next _ .advance, getV_setV_same s x v, regsKept_setV s x v, rfl, unchanged_set_regs_pc s _ _⟩

theorem exec_ldByte (x : RegId) (kk : Byte) (s : State) :
    exec (.ldByte x kk) s = finish (s.setV x kk) .advance := rfl

theorem exec_ldReg (x y : RegId) (s : State) :
    exec (.ldReg x y) s = finish (s.setV x (s.getV y)) .advance := rfl

/-- Settles O25: both loads store one value in Vx and advance, the byte kk or the register Vy. -/
theorem loadsPutTheValueInVx : Obligations.LoadsPutTheValueInVx := by
  intro x y kk s
  rw [exec_ldByte, exec_ldReg]
  exact ⟨finish_setV_advance_next s x kk, finish_setV_advance_next s x (s.getV y)⟩

end Sys2Proof.Machine
end

section
/-! PROOFS. The load of the address register (R170): a 12-bit address widened to a word keeps its value, the frame of a
write to I and PC, and LD I as that write. -/

namespace Sys2Proof.Machine

/-- Widening an address to a word keeps its value, so the word is at most 0xFFF (R170). -/
theorem toNat_zextAddr (a : Addr12) : (zextAddr a).toNat = a.toNat :=
  BitVec.toNat_setWidth_of_le (by decide)

/-- A write to I and PC leaves every other part of the state alone. -/
theorem unchanged_set_i_pc (s : State) (a v : Word) : Unchanged [.i, .pc] s { s with i := a, pc := v } := by
  intro p hp
  cases p with
  | i => exact absurd List.mem_cons_self hp
  | pc => exact absurd (List.mem_cons_of_mem _ List.mem_cons_self) hp
  | regs | mem | keys => exact fun _ => rfl
  | fb => exact fun _ _ => rfl
  | _ => exact rfl

/-- A write of I that advances: I takes the value, and the other parts stay. -/
theorem finish_set_i_advance_next (s : State) (a : Word) :
    ∃ t, finish { s with i := a } .advance = .next t ∧ t.i = a ∧ t.pc = s.pc + 2 ∧ Unchanged [.i, .pc] s t :=
  ⟨_, finish_eq_next _ .advance, rfl, rfl, unchanged_set_i_pc s _ _⟩

theorem exec_ldI (nnn : Addr12) (s : State) :
    exec (.ldI nnn) s = finish { s with i := zextAddr nnn } .advance := rfl

/-- Settles O33: LD I is the write of the widened address to I, and the widening keeps its value. -/
theorem loadIndexTakesTheAddress : Obligations.LoadIndexTakesTheAddress := by
  intro nnn s
  obtain ⟨t, hfinish, hi, hpc, hframe⟩ := finish_set_i_advance_next s (zextAddr nnn)
  have hvalue : t.i.toNat = nnn.toNat := by rw [hi, toNat_zextAddr]
  exact ⟨t, (exec_ldI nnn s).trans hfinish, hvalue, hpc, hframe⟩

end Sys2Proof.Machine
end

section
/-! PROOFS. Decoder and encoder (R94 to R98): the decoder family by family, the round trips, the illegal words. -/

namespace Sys2Proof

theorem Encode.nnn_injective (o : BitVec 4) : Function.Injective (Encode.nnn o) := fun a b h => by
  simpa using congrArg Decode.nnn h

theorem Instr.wf_sys (a : Addr12) : (Instr.sys a).wf = true ↔ a ≠ 0x0E0#12 ∧ a ≠ 0x0EE#12 := by
  simp [Instr.wf]

/-- Settles O3: the decoder reads the opcode, the keys and the operands back from the fields the encoder laid them in;
SYS lacks the two addresses whose words are CLS and RET. -/
theorem decodeOfEncodeIsTheInstruction : Obligations.DecodeOfEncodeIsTheInstruction := by
  intro i hwf
  cases i with
  | cls | ret => rfl
  | sys a =>
    obtain ⟨hcls, hret⟩ := (Instr.wf_sys a).mp hwf
    have hcls : Encode.nnn 0x0#4 a ≠ 0x00E0#16 := (Encode.nnn_injective _).ne hcls
    have hret : Encode.nnn 0x0#4 a ≠ 0x00EE#16 := (Encode.nnn_injective _).ne hret
    simp [encode, decode, Decode.family0, hcls, hret]
  | jp | call | ldI | jpV0 => simp [encode, decode]
  | seByte | sneByte | ldByte | addByte | rnd => simp [encode, decode]
  | seReg | sneReg | drw => simp [encode, decode]
  | ldReg | orReg | andReg | xorReg | addReg | subReg | shrReg | subnReg | shlReg =>
    simp [encode, decode, Decode.family8]
  | skp | sknp => simp [encode, decode, Decode.familyE]
  | ldVxDt | ldVxK | ldDtVx | ldStVx | addI | ldF | ldB | ldMemVx | ldVxMem =>
    simp [encode, decode, Decode.familyF]

namespace Decode

/-! A word of a known family, and of a known key, is the format of its remaining fields. -/

theorem eq_nnn_of_op {w : Word} {o : BitVec 4} (ho : op w = o) : Encode.nnn o (nnn w) = w :=
  ho ▸ word_eq_nnn w

theorem eq_xkk_of_op {w : Word} {o : BitVec 4} (ho : op w = o) : Encode.xkk o (x w) (kk w) = w :=
  ho ▸ word_eq_xkk w

theorem eq_xkk_of_op_kk {w : Word} {o : BitVec 4} {k : Byte} (ho : op w = o) (hk : kk w = k) :
    Encode.xkk o (x w) k = w :=
  hk ▸ eq_xkk_of_op ho

theorem eq_xyn_of_op {w : Word} {o : BitVec 4} (ho : op w = o) : Encode.xyn o (x w) (y w) (n w) = w :=
  ho ▸ word_eq_xyn w

theorem eq_xyn_of_op_n {w : Word} {o m : BitVec 4} (ho : op w = o) (hm : n w = m) :
    Encode.xyn o (x w) (y w) m = w :=
  hm ▸ eq_xyn_of_op ho

/-! The three families with keys of their own, in the word's fields. -/

/-- An instruction of family 0 is well-formed, and the word is its own (R97). -/
theorem encode_family0 {w : Word} (ho : op w = 0x0#4) : (family0 w).wf = true ∧ encode (family0 w) = w := by
  unfold family0
  split
  · next h => exact ⟨rfl, h.symm⟩
  · next hcls =>
    split
    · next h => exact ⟨rfl, h.symm⟩
    · next hret =>
      have hw : Encode.nnn 0x0#4 (nnn w) = w := eq_nnn_of_op ho
      refine ⟨(Instr.wf_sys _).mpr ⟨fun h => hcls ?_, fun h => hret ?_⟩, hw⟩ <;> rw [← hw, h] <;> rfl

theorem encode_family8 {w : Word} {i : Instr} (ho : op w = 0x8#4) (h : family8 w = .ok i) :
    i.wf = true ∧ encode i = w := by
  unfold family8 at h
  split at h
  case h_10 => cases h
  all_goals
    next hn =>
    cases h
    exact ⟨rfl, eq_xyn_of_op_n ho (BitVec.eq_of_toNat_eq hn)⟩

theorem encode_familyE {w : Word} {i : Instr} (ho : op w = 0xE#4) (h : familyE w = .ok i) :
    i.wf = true ∧ encode i = w := by
  unfold familyE at h
  repeat' split at h
  all_goals cases h
  all_goals exact ⟨rfl, eq_xkk_of_op_kk ho ‹_›⟩

theorem encode_familyF {w : Word} {i : Instr} (ho : op w = 0xF#4) (h : familyF w = .ok i) :
    i.wf = true ∧ encode i = w := by
  unfold familyF at h
  repeat' split at h
  all_goals cases h
  all_goals exact ⟨rfl, eq_xkk_of_op_kk ho ‹_›⟩

theorem eq_ofNat_of_toNat {m k : Nat} {v : BitVec m} (h : v.toNat = k) : v = BitVec.ofNat m k := by
  rw [← h, BitVec.ofNat_toNat, BitVec.setWidth_eq]

/-- The family the decoder's last arm is left with. -/
theorem op_eq_fifteen {w : Word} (h : (op w).toNat ∉ [0, 1, 2, 3, 4, 5, 6, 7, 8, 9, 10, 11, 12, 13, 14]) :
    op w = 0xF#4 := by
  have := (op w).isLt
  simp only [List.mem_cons, List.not_mem_nil] at h
  exact eq_ofNat_of_toNat (by omega)

/-- Families 5 and 9: the low nibble must be 0 (D20). -/
theorem encode_of_n_eq_zero {w : Word} {i j : Instr} {o : BitVec 4} (ho : op w = o)
    (hj : j.wf = true ∧ encode j = Encode.xyn o (x w) (y w) 0#4)
    (h : (if n w = 0#4 then .ok j else .error (.unknownOpcode w) : Except DecodeError Instr) = .ok i) :
    i.wf = true ∧ encode i = w := by
  split at h
  · next hn =>
    cases h
    exact ⟨hj.1, hj.2.trans (eq_xyn_of_op_n ho hn)⟩
  · cases h

end Decode

/-- Settles O4: in each family the word is the format of the fields its instruction was read from. -/
theorem encodeOfDecodeIsTheWord : Obligations.EncodeOfDecodeIsTheWord := by
  intro w i h
  unfold decode at h
  split at h
  case h_1 ho => cases h; exact Decode.encode_family0 (Decode.eq_ofNat_of_toNat ho)
  case h_2 ho | h_3 ho | h_11 ho | h_12 ho =>
    cases h; exact ⟨rfl, Decode.eq_nnn_of_op (Decode.eq_ofNat_of_toNat ho)⟩
  case h_4 ho | h_5 ho | h_7 ho | h_8 ho | h_13 ho =>
    cases h; exact ⟨rfl, Decode.eq_xkk_of_op (Decode.eq_ofNat_of_toNat ho)⟩
  case h_6 ho | h_10 ho => exact Decode.encode_of_n_eq_zero (Decode.eq_ofNat_of_toNat ho) ⟨rfl, rfl⟩ h
  case h_14 ho => cases h; exact ⟨rfl, Decode.eq_xyn_of_op (Decode.eq_ofNat_of_toNat ho)⟩
  case h_9 ho => exact Decode.encode_family8 (Decode.eq_ofNat_of_toNat ho) h
  case h_15 ho => exact Decode.encode_familyE (Decode.eq_ofNat_of_toNat ho) h
  case h_16 =>
    exact Decode.encode_familyF (Decode.op_eq_fifteen (by simp_all)) h


/-! The words each family refuses, by the family's key (R98). -/

namespace Decode

theorem family8_refuses_iff (w : Word) :
    family8 w = .error (.unknownOpcode w) ↔ (n w).toNat ∈ [8, 9, 10, 11, 12, 13, 15] := by
  unfold family8
  split
  case h_10 =>
    have := (n w).isLt
    simp only [imp_false, true_iff, List.mem_cons, List.not_mem_nil] at *
    omega
  all_goals simp [*]

theorem familyE_refuses_iff (w : Word) :
    familyE w = .error (.unknownOpcode w) ↔ (kk w).toNat ∉ [0x9E, 0xA1] := by
  unfold familyE
  repeat' split
  all_goals simp_all [← BitVec.toNat_inj]

theorem familyF_refuses_iff (w : Word) :
    familyF w = .error (.unknownOpcode w) ↔
      (kk w).toNat ∉ [0x07, 0x0A, 0x15, 0x18, 0x1E, 0x29, 0x33, 0x55, 0x65] := by
  unfold familyF
  repeat' split
  all_goals simp_all [← BitVec.toNat_inj]

end Decode

/-- Settles O6: a family without keys refuses nothing, and each family with keys refuses the rest of them. -/
theorem refusedWordsAreTheIllegalOnes : Obligations.RefusedWordsAreTheIllegalOnes := by
  intro w
  rw [← Decode.op_toNat, ← Decode.n_toNat, ← Decode.kk_toNat]
  unfold decode
  split
  case h_6 ho | h_10 ho =>
    simp [ho, ← BitVec.toNat_inj]
  case h_9 ho => simpa [ho] using Decode.family8_refuses_iff w
  case h_15 ho => simpa [ho] using Decode.familyE_refuses_iff w
  case h_16 =>
    have ho : Decode.op w = 0xF#4 := Decode.op_eq_fifteen (by simp_all)
    simpa [ho] using Decode.familyF_refuses_iff w
  all_goals simp [*]

/-- Settles O1: each of the words decodes by evaluation, the three families of x one x at a time. -/
theorem sourceWordsDecodeAsTheSourceSays : Obligations.SourceWordsDecodeAsTheSourceSays := by
  unfold Obligations.SourceWordsDecodeAsTheSourceSays
  decide

/-- Settles O2: each of the words decodes by evaluation. -/
theorem oneWordOfEachFamilyDecodes : Obligations.OneWordOfEachFamilyDecodes := by
  unfold Obligations.OneWordOfEachFamilyDecodes
  decide

end Sys2Proof
end

section
/-! PROOFS. The opcode map (R96): only the rows of the word's own family can be selected, the key that picks one among
them, and the decoder family by family. -/

namespace Sys2Proof

/-- The rows of one family of the opcode map, in the table's order. -/
def familyRows (o : BitVec 4) : List OpcodeRow := opcodeTable.filter fun r => Decode.op r.pattern == o

/-- Every mask of the map keeps bits 15:12, so a word selects rows of its own family only. -/
theorem op_of_selects {w : Word} {r : OpcodeRow} (hr : r ∈ opcodeTable) (h : w &&& r.mask = r.pattern) :
    Decode.op r.pattern = Decode.op w := by
  have hmask : ∀ r ∈ opcodeTable, Decode.op r.mask = BitVec.allOnes 4 := by decide
  have hand : Decode.op (w &&& r.mask) = Decode.op w &&& Decode.op r.mask := BitVec.extractLsb'_and
  rw [← h, hand, hmask r hr, BitVec.and_allOnes]

theorem firstRow_eq_find?_familyRows (w : Word) :
    firstRow w = (familyRows (Decode.op w)).find? fun r => w &&& r.mask == r.pattern := by
  rw [familyRows, List.find?_filter, firstRow]
  refine List.find?_congr fun r hr => ?_
  by_cases h : w &&& r.mask = r.pattern
  · simp [h, op_of_selects hr h]
  · simp [h]

/-! The row picked within a family: its only one, or the one whose key is the word's. -/

theorem firstRow_of_no_key {w : Word} {o : BitVec 4} (ho : Decode.op w = o) {r : OpcodeRow}
    (hr : familyRows o = [r]) (hmask : r.mask = 0xF000#16) (hpat : r.pattern = Encode.nnn o 0) :
    firstRow w = some r := by
  have hw : w &&& 0xF000#16 = Encode.nnn o 0 := by
    rw [← Decode.eq_nnn_of_op ho, Laws.InRow.nnn_mask]
  simp [firstRow_eq_find?_familyRows, ho, hr, hmask, hpat, hw]

theorem firstRow_of_nibble_key {w : Word} {o : BitVec 4} (ho : Decode.op w = o)
    (hrows : ∀ r ∈ familyRows o, r.mask = 0xF00F#16 ∧ r.pattern = Encode.xyn o 0 0 (Decode.n r.pattern)) :
    firstRow w = (familyRows o).find? fun r => Decode.n r.pattern == Decode.n w := by
  have hw : w &&& 0xF00F#16 = Encode.xyn o 0 0 (Decode.n w) := by
    conv_lhs => rw [← Decode.eq_xyn_of_op ho, Laws.InRow.xyn_key_mask]
  rw [firstRow_eq_find?_familyRows, ho]
  refine List.find?_congr fun r hr => ?_
  obtain ⟨hmask, hpat⟩ := hrows r hr
  rw [hmask, hw, Bool.eq_iff_iff, beq_iff_eq, beq_iff_eq]
  constructor
  · intro h; rw [← h, Decode.n_xyn]
  · intro h; rw [hpat, h]

theorem firstRow_of_byte_key {w : Word} {o : BitVec 4} (ho : Decode.op w = o)
    (hrows : ∀ r ∈ familyRows o, r.mask = 0xF0FF#16 ∧ r.pattern = Encode.xkk o 0 (Decode.kk r.pattern)) :
    firstRow w = (familyRows o).find? fun r => Decode.kk r.pattern == Decode.kk w := by
  have hw : w &&& 0xF0FF#16 = Encode.xkk o 0 (Decode.kk w) := by
    conv_lhs => rw [← Decode.eq_xkk_of_op ho, Laws.InRow.xkk_key_mask]
  rw [firstRow_eq_find?_familyRows, ho]
  refine List.find?_congr fun r hr => ?_
  obtain ⟨hmask, hpat⟩ := hrows r hr
  rw [hmask, hw, Bool.eq_iff_iff, beq_iff_eq, beq_iff_eq]
  constructor
  · intro h; rw [← h, Decode.kk_xkk]
  · intro h; rw [hpat, h]

/-- The row of a decoder's answer: that of the instruction, none when it refuses. -/
def rowOf : Except DecodeError Instr → Option OpcodeRow
  | .ok i => some i.row
  | .error _ => none

theorem firstRow_family0 {w : Word} (ho : Decode.op w = 0x0#4) : firstRow w = some (Decode.family0 w).row := by
  have hrows : familyRows 0x0#4 = [⟨0xFFFF, 0x00E0⟩, ⟨0xFFFF, 0x00EE⟩, ⟨0xF000, 0x0000⟩] := by decide
  have hsys : w &&& 0xF000#16 = 0x0000#16 := by
    rw [← Decode.eq_nnn_of_op ho, Laws.InRow.nnn_mask]; rfl
  have hall : w &&& 0xFFFF#16 = w := BitVec.and_allOnes
  rw [firstRow_eq_find?_familyRows, ho, hrows, Decode.family0]
  split
  · next h => subst h; decide
  · split
    · next h => subst h; decide
    · simp [*, beq_false_of_ne, Instr.row]

theorem firstRow_family8 {w : Word} (ho : Decode.op w = 0x8#4) : firstRow w = rowOf (Decode.family8 w) := by
  have hnone : ∀ m : BitVec 4, 8 ≤ m.toNat → m.toNat ≠ 14 →
      (familyRows 0x8#4).find? (fun r => Decode.n r.pattern == m) = none := by decide
  rw [firstRow_of_nibble_key ho (by decide)]
  unfold Decode.family8
  split
  case h_10 =>
    simp only [imp_false] at *
    exact hnone _ (by omega) (by omega)
  all_goals
    next hn =>
    rw [Decode.eq_ofNat_of_toNat hn]; rfl

/-- A word of a family with byte keys whose low byte is none of them selects no row. -/
theorem find?_byte_key_eq_none {w : Word} {o : BitVec 4} {keys : List Byte}
    (hkeys : (familyRows o).map (fun r => Decode.kk r.pattern) = keys) (hw : Decode.kk w ∉ keys) :
    ((familyRows o).find? fun r => Decode.kk r.pattern == Decode.kk w) = none := by
  rw [List.find?_eq_none]
  intro r hr h
  rw [beq_iff_eq] at h
  rw [← hkeys, ← h] at hw
  exact hw (List.mem_map_of_mem hr)

theorem firstRow_familyE {w : Word} (ho : Decode.op w = 0xE#4) : firstRow w = rowOf (Decode.familyE w) := by
  have hkeys : (familyRows 0xE#4).map (fun r => Decode.kk r.pattern) = [0x9E#8, 0xA1#8] := by decide
  rw [firstRow_of_byte_key ho (by decide)]
  unfold Decode.familyE
  repeat' split
  case isFalse.isFalse => exact find?_byte_key_eq_none hkeys (by simp [*])
  all_goals
    next h => rw [h]; rfl

theorem firstRow_familyF {w : Word} (ho : Decode.op w = 0xF#4) : firstRow w = rowOf (Decode.familyF w) := by
  have hkeys : (familyRows 0xF#4).map (fun r => Decode.kk r.pattern) =
      [0x07#8, 0x0A#8, 0x15#8, 0x18#8, 0x1E#8, 0x29#8, 0x33#8, 0x55#8, 0x65#8] := by decide
  rw [firstRow_of_byte_key ho (by decide)]
  unfold Decode.familyF
  repeat' split
  case isFalse.isFalse.isFalse.isFalse.isFalse.isFalse.isFalse.isFalse.isFalse =>
    exact find?_byte_key_eq_none hkeys (by simp [*])
  all_goals
    next h => rw [h]; rfl

/-- The families whose one key is the low nibble 0 (D20). -/
theorem firstRow_of_n_eq_zero {w : Word} {o : BitVec 4} (ho : Decode.op w = o) {r : OpcodeRow}
    (hr : familyRows o = [r]) (hmask : r.mask = 0xF00F#16) (hpat : r.pattern = Encode.xyn o 0 0 0) :
    firstRow w = if Decode.n w = 0#4 then some r else none := by
  rw [firstRow_of_nibble_key ho (by simp [hr, hmask, hpat]), hr]
  by_cases hn : Decode.n w = 0#4
  · simp [hpat, hn]
  · simp [hpat, hn, Ne.symm hn]

/-- Settles O5: the decoder and the map agree family by family. -/
theorem decoderFollowsTheFirstRowSelected : Obligations.DecoderFollowsTheFirstRowSelected := by
  intro w
  change firstRow w = rowOf (decode w)
  unfold decode
  split
  case h_1 ho => exact firstRow_family0 (Decode.eq_ofNat_of_toNat ho)
  case h_2 ho | h_3 ho | h_4 ho | h_5 ho | h_7 ho | h_8 ho | h_11 ho | h_12 ho | h_13 ho | h_14 ho =>
    exact firstRow_of_no_key (Decode.eq_ofNat_of_toNat ho) rfl rfl rfl
  case h_6 ho | h_10 ho =>
    rw [firstRow_of_n_eq_zero (Decode.eq_ofNat_of_toNat ho) rfl rfl rfl]
    split <;> rfl
  case h_9 ho => exact firstRow_family8 (Decode.eq_ofNat_of_toNat ho)
  case h_15 ho => exact firstRow_familyE (Decode.eq_ofNat_of_toNat ho)
  case h_16 => exact firstRow_familyF (Decode.op_eq_fifteen (by simp_all))

end Sys2Proof
end

section
/-! PROOFS. Frames of the instructions (R39, R45, R61, R132, R221): a state with some parts taken from another, Fatal
entry, and, once for all 35 instructions, that the answer is a Fatal's entry or a change of their own parts. -/

namespace Sys2Proof.Machine

/-- `s` with the listed parts taken from `t`. -/
def State.taking (s t : State) (l : List Part) : State where
  regs := if Part.regs ∈ l then t.regs else s.regs
  i := if Part.i ∈ l then t.i else s.i
  pc := if Part.pc ∈ l then t.pc else s.pc
  dt := if Part.dt ∈ l then t.dt else s.dt
  st := if Part.st ∈ l then t.st else s.st
  stack := if Part.stack ∈ l then t.stack else s.stack
  mem := if Part.mem ∈ l then t.mem else s.mem
  fb := if Part.fb ∈ l then t.fb else s.fb
  keys := if Part.keys ∈ l then t.keys else s.keys
  lastKey := if Part.lastKey ∈ l then t.lastKey else s.lastKey
  wait := if Part.wait ∈ l then t.wait else s.wait
  halt := if Part.halt ∈ l then t.halt else s.halt
  draws := if Part.draws ∈ l then t.draws else s.draws
  emitted := if Part.emitted ∈ l then t.emitted else s.emitted
  agenda := if Part.agenda ∈ l then t.agenda else s.agenda

/-- Taking the listed parts from another state leaves the others alone. -/
theorem unchanged_taking (s t : State) (l : List Part) : Unchanged l s (s.taking t l) := by
  intro p hp
  cases p with
  | regs => exact getV_congr (if_neg hp)
  | keys => exact key_congr (if_neg hp)
  | mem => exact fun a => congrArg (Memory.read · a) (if_neg hp)
  | fb => exact fun r c => congrArg (pixel · r c) (if_neg hp)
  | _ => exact if_neg hp

/-- A frame by evaluation: for a written-out update of the listed parts the hypothesis is `rfl`. -/
theorem unchanged_of_eq_taking {s t : State} {l : List Part} (h : t = s.taking t l) : Unchanged l s t := by
  rw [h]
  exact unchanged_taking s t l

theorem stoppedBy_raiseFatal (s : State) (f : Fatal) : StoppedBy f s (raiseFatal s f) :=
  ⟨rfl, rfl, unchanged_of_eq_taking rfl⟩

/-! ### Every instruction's answer -/

/-- The answer is a next state: the entry of a Fatal, or `s` with nothing but the listed parts changed. -/
def AnswersWithin (l : List Part) (s : State) (o : Host.Outcome State Fault Refusal) : Prop :=
  ∃ t, o = .next t ∧ ((∃ f, t = raiseFatal s f) ∨ t = s.taking t l)

section
variable {l : List Part} {s : State}

theorem answersWithin_finish {u : State} {o : InstrOutcome}
    (h : applyOutcome u o = s.taking (applyOutcome u o) l) : AnswersWithin l s (finish u o) :=
  ⟨_, rfl, .inr h⟩

theorem answersWithin_fatal (f : Fatal) : AnswersWithin l s (finish s (.fatal f)) :=
  ⟨_, rfl, .inl ⟨f, rfl⟩⟩

theorem answersWithin_finishChecked {α : Type} {r : Except Fatal α} {k : α → Host.Outcome State Fault Refusal}
    (h : ∀ a, r = .ok a → AnswersWithin l s (k a)) : AnswersWithin l s (finishChecked s r k) := by
  cases r with
  | error f => exact answersWithin_fatal f
  | ok a => exact h a rfl

theorem answersWithin_jumpChecked {p : Config.OddTargetPolicy} {a : Word} {k : Host.Outcome State Fault Refusal}
    (h : AnswersWithin l s k) : AnswersWithin l s (jumpChecked p s a k) := by
  unfold jumpChecked
  split
  · exact answersWithin_fatal _
  · exact h

theorem answersWithin_skipIf (c : Bool) : AnswersWithin [.pc] s (skipIf s c) := by
  rw [skipIf_eq]
  exact ⟨_, rfl, .inr rfl⟩

end

/-- A successful pop gives the newest entry and the stack without it (R32). -/
theorem pop_eq_ok {s u : State} {v : Word} (h : pop s = .ok (v, u)) :
    ∃ l, s.stack = l ++ [v] ∧ u = { s with stack := l } := by
  rcases pop_cases s with ⟨_, e⟩ | ⟨l, a, hl, e⟩ <;> rw [e] at h <;> cases h
  exact ⟨l, hl, rfl⟩

/-- A successful push finds room (R31). -/
theorem push_eq_ok {s u : State} {v : Word} (h : push s v = .ok u) :
    s.stack.length < Config.stackDepth ∧ u = { s with stack := s.stack ++ [v] } := by
  rcases push_cases s v with ⟨_, e⟩ | ⟨hl, e⟩ <;> rw [e] at h <;> cases h
  exact ⟨hl, rfl⟩

/-- A successful range write lies inside MEM (R63, R68). -/
theorem memWriteRange_eq_ok {s u : State} {a : Nat} {vs : List Byte} (h : memWriteRange s a vs = .ok u) :
    (vs.length = 0 ∨ a + vs.length ≤ Config.memSize) ∧ u = { s with mem := s.mem.writeBytes a vs } := by
  rcases memWriteRange_cases s a vs with ⟨_, _, e⟩ | ⟨hl, e⟩ <;> rw [e] at h <;> cases h
  exact ⟨hl, rfl⟩

/-- Every instruction answers, and within its own parts (R39, R45, R61, R132). -/
theorem exec_answersWithin (i : Instr) (s : State) : AnswersWithin (mayChange i) s (exec i s) := by
  cases i with
  | cls | sys | ldI | addI | ldF | ldVxK | ldDtVx => exact answersWithin_finish rfl
  | ldByte | addByte | ldReg | ldVxDt | rnd => exact answersWithin_finish rfl
  | orReg | andReg | xorReg => exact answersWithin_finish rfl
  | addReg | subReg | shrReg | subnReg | shlReg => exact answersWithin_finish rfl
  | seByte | sneByte | seReg | sneReg => exact answersWithin_skipIf _
  | skp | sknp => exact answersWithin_finishChecked fun _ _ => answersWithin_skipIf _
  | jp | jpV0 => exact answersWithin_jumpChecked (answersWithin_finish rfl)
  | ret =>
    refine answersWithin_finishChecked fun ⟨v, u⟩ h => ?_
    obtain ⟨l, _, rfl⟩ := pop_eq_ok h
    exact answersWithin_finish rfl
  | call =>
    refine answersWithin_jumpChecked (answersWithin_finishChecked fun u h => ?_)
    obtain ⟨_, rfl⟩ := push_eq_ok h
    exact answersWithin_finish rfl
  | drw => exact answersWithin_finishChecked fun _ _ => answersWithin_finish rfl
  | ldStVx x =>
    refine answersWithin_finish ?_
    unfold emitTone
    split <;> rfl
  | ldB | ldMemVx =>
    refine answersWithin_finishChecked fun u h => ?_
    obtain ⟨_, rfl⟩ := memWriteRange_eq_ok h
    exact answersWithin_finish rfl
  | ldVxMem =>
    refine answersWithin_finishChecked fun bytes _ => answersWithin_finish ?_
    rw [setRegBlock_regs_only]
    rfl

/-- Settles O12: every instruction answers within its own parts, so it answers. -/
theorem everyInstructionAnswersNext : Obligations.EveryInstructionAnswersNext := by
  intro i s
  obtain ⟨t, h, _⟩ := exec_answersWithin i s
  exact ⟨t, h⟩

/-- What an instruction's next state is: a Fatal's entry, or a change of its own parts. -/
theorem exec_next {i : Instr} {s t : State} (h : exec i s = .next t) :
    (∃ f, t = raiseFatal s f) ∨ t = s.taking t (mayChange i) := by
  obtain ⟨u, hu, hcases⟩ := exec_answersWithin i s
  cases h.symm.trans hu
  exact hcases

/-- Settles O16: a Fatal's entry is a stop, and a change of the instruction's own parts keeps the others. -/
theorem instructionsChangeOnlyTheirOwnParts : Obligations.InstructionsChangeOnlyTheirOwnParts := by
  intro i s t h
  rcases exec_next h with ⟨f, rfl⟩ | h
  · exact .inl ⟨f, stoppedBy_raiseFatal s f⟩
  · exact .inr (unchanged_of_eq_taking h)

/-- No instruction has HALT among its own parts: only Fatal entry sets HALT (R221). -/
theorem halt_not_mem_mayChange (i : Instr) : Part.halt ∉ mayChange i := by
  cases i <;> simp [mayChange]

/-- Settles O14: of what an instruction step can do, only a Fatal's entry sets HALT. -/
theorem fatalEntryChangesOnlyHalt : Obligations.FatalEntryChangesOnlyHalt := by
  intro s t h hhalt
  rcases instructionStep_next h with ⟨_, ⟨_, rfl⟩ | ⟨_, ⟨f, rfl⟩ | ⟨_, i, _, _, hexec⟩⟩⟩
  · exact absurd rfl hhalt
  · exact ⟨f, stoppedBy_raiseFatal s f⟩
  · rcases instructionsChangeOnlyTheirOwnParts i s t hexec with hstop | hkept
    · exact hstop
    · exact absurd (hkept .halt (halt_not_mem_mayChange i)) hhalt

end Sys2Proof.Machine
end

section
/-! PROOFS. The invariants of R44: the parts they speak of, what an outcome, an instruction, an event and a reset leave
of them, and so that every step keeps them. -/

namespace Sys2Proof.Machine

/-! ### Jump targets -/

/-- The check of a target, by the target's last bit as a number (R25, D5). -/
theorem targetFatal_of_odd {a : Word} (h : a.toNat % 2 = 1) :
    targetFatal quirks.oddTarget a = some (.misalignedTarget a) := by
  rcases targetFatal_cases a with ⟨_, e⟩ | ⟨hb, _⟩
  · exact e
  · simp [BitVec.getLsbD, Nat.testBit_zero, h] at hb

theorem targetFatal_of_even {a : Word} (h : a.toNat % 2 = 0) : targetFatal quirks.oddTarget a = none := by
  rcases targetFatal_cases a with ⟨hb, _⟩ | ⟨_, e⟩
  · simp [BitVec.getLsbD, Nat.testBit_zero, h] at hb
  · exact e

theorem even_of_targetFatal_eq_none {a : Word} (h : targetFatal quirks.oddTarget a = none) : a.toNat % 2 = 0 := by
  by_contra hodd
  rw [targetFatal_of_odd (by omega)] at h
  cases h

/-- The target of JP V0 is the plain sum, since it stays below 2^16 (R129, D22). -/
theorem toNat_indexedTarget (s : State) (nnn : Addr12) :
    (indexedTarget s nnn).toNat = nnn.toNat + (s.getV 0).toNat := by
  have hbyte : (zextByte (s.getV 0)).toNat = (s.getV 0).toNat := BitVec.toNat_setWidth_of_le (by decide)
  have := nnn.isLt
  have := (s.getV 0).isLt
  rw [indexedTarget, BitVec.toNat_add, toNat_zextAddr, hbyte]
  omega

/-! ### The invariants and the outcomes -/

/-- The parts the invariants say nothing of. -/
def freeParts : List Part := [.regs, .i, .dt, .st, .fb, .keys, .lastKey, .draws, .emitted, .agenda]

theorem State.Inv.of_taking {s t : State} (h : s.Inv) (e : t = s.taking t freeParts) : t.Inv := by
  rw [e]
  exact ⟨h.memWf, h.memInBounds, h.stackDepth, h.stackEntries, h.pcEven, h.pcRange, h.waitFetched, h.haltNotWaiting⟩

/-- A state in which an instruction has been fetched: it meets the invariants, is enabled, and PC lies in MEM. -/
structure State.Fetched (s : State) : Prop where
  inv : s.Inv
  enabled : s.enabled
  pcFetched : s.pc.toNat ≤ 0xFFE

theorem State.Fetched.of_taking {s t : State} (h : s.Fetched) (e : t = s.taking t freeParts) : t.Fetched := by
  have hinv : t.Inv := h.inv.of_taking e
  rw [e] at hinv ⊢
  exact ⟨hinv, h.enabled, h.pcFetched⟩

/-- A jump target the invariants allow (R27). -/
def GoodTarget (a : Word) : Prop := a.toNat % 2 = 0 ∧ a.toNat ≤ 0x10FE

theorem State.Fetched.inv_set_pc {s : State} (h : s.Fetched) {a : Word} (ha : GoodTarget a) :
    State.Inv { s with pc := a } where
  memWf := h.inv.memWf
  memInBounds := h.inv.memInBounds
  stackDepth := h.inv.stackDepth
  stackEntries := h.inv.stackEntries
  pcEven := ha.1
  pcRange := ha.2
  waitFetched := fun hw => by simp [h.enabled.2] at hw
  haltNotWaiting := h.inv.haltNotWaiting

theorem State.Fetched.toNat_pc_add {s : State} (h : s.Fetched) {d : Word} (hd : d.toNat ≤ 4) :
    (s.pc + d).toNat = s.pc.toNat + d.toNat := by
  have := h.pcFetched
  exact BitVec.toNat_add_of_lt (by omega)

theorem State.Fetched.goodTarget_pc_add {s : State} (h : s.Fetched) {d : Word} (hd : d.toNat ≤ 4)
    (heven : d.toNat % 2 = 0) : GoodTarget (s.pc + d) := by
  have := h.pcFetched
  have := h.inv.pcEven
  rw [GoodTarget, h.toNat_pc_add hd]
  omega

theorem State.Fetched.goodTarget_advance {s : State} (h : s.Fetched) : GoodTarget (s.pc + 2) :=
  h.goodTarget_pc_add (by decide) rfl

theorem State.Fetched.goodTarget_skip {s : State} (h : s.Fetched) : GoodTarget (s.pc + 4) :=
  h.goodTarget_pc_add (by decide) rfl

theorem State.Inv.raiseFatal {s : State} (h : s.Inv) (hw : s.wait = none) (f : Fatal) : (raiseFatal s f).Inv where
  memWf := h.memWf
  memInBounds := h.memInBounds
  stackDepth := h.stackDepth
  stackEntries := h.stackEntries
  pcEven := h.pcEven
  pcRange := h.pcRange
  waitFetched := h.waitFetched
  haltNotWaiting := fun _ => hw

theorem State.Fetched.inv_enterKeyWait {s : State} (h : s.Fetched) (x : RegId) :
    State.Inv { s with wait := some x } where
  memWf := h.inv.memWf
  memInBounds := h.inv.memInBounds
  stackDepth := h.inv.stackDepth
  stackEntries := h.inv.stackEntries
  pcEven := h.inv.pcEven
  pcRange := h.inv.pcRange
  waitFetched := fun _ => h.pcFetched
  haltNotWaiting := fun hh => by simp [h.enabled.1] at hh

/-- Every outcome keeps the invariants, a jump to a good target among them (R26). -/
theorem State.Fetched.inv_applyOutcome {s : State} (h : s.Fetched) {o : InstrOutcome}
    (ho : ∀ a, o = .jumpTaken a → GoodTarget a) : (applyOutcome s o).Inv := by
  cases o with
  | advance => exact h.inv_set_pc h.goodTarget_advance
  | skipOne => exact h.inv_set_pc h.goodTarget_skip
  | jumpTaken a => exact h.inv_set_pc (ho a rfl)
  | enterKeyWait x => exact h.inv_enterKeyWait x
  | requestRedraw => exact (h.inv_set_pc h.goodTarget_advance).of_taking rfl
  | fatal f => exact h.inv.raiseFatal h.enabled.2 f

/-- If the answer is a next state, it meets the invariants. -/
def KeepsInv (o : Host.Outcome State Fault Refusal) : Prop := ∀ t, o = .next t → t.Inv

theorem keepsInv_finish {s : State} {o : InstrOutcome} (h : s.Fetched) (ho : ∀ a, o = .jumpTaken a → GoodTarget a) :
    KeepsInv (finish s o) := by
  rintro t ht
  cases ht
  exact h.inv_applyOutcome ho

theorem keepsInv_advance {s : State} (h : s.Fetched) : KeepsInv (finish s .advance) := keepsInv_finish h nofun

theorem keepsInv_jump {s : State} {a : Word} (h : s.Fetched) (ha : GoodTarget a) : KeepsInv (finish s (.jumpTaken a)) :=
  keepsInv_finish h fun _ e => by cases e; exact ha

theorem keepsInv_skipIf {s : State} (h : s.Fetched) (c : Bool) : KeepsInv (skipIf s c) := by
  cases c <;> exact keepsInv_finish h nofun

theorem keepsInv_finishChecked {α : Type} {s : State} {r : Except Fatal α} {k : α → Host.Outcome State Fault Refusal}
    (h : s.Fetched) (hk : ∀ a, r = .ok a → KeepsInv (k a)) : KeepsInv (finishChecked s r k) := by
  cases r with
  | error f => exact keepsInv_finish h nofun
  | ok a => exact hk a rfl

theorem keepsInv_jumpChecked {s : State} {a : Word} {k : Host.Outcome State Fault Refusal} (h : s.Fetched)
    (hk : a.toNat % 2 = 0 → KeepsInv k) : KeepsInv (jumpChecked quirks.oddTarget s a k) := by
  unfold jumpChecked
  split
  · exact keepsInv_finish h nofun
  · next e => exact hk (even_of_targetFatal_eq_none e)

/-! ### The instructions -/

/-- A store inside MEM keeps what an instruction needs (R63, R68). -/
theorem State.Fetched.of_memWriteRange {s u : State} (h : s.Fetched) {a : Nat} {vs : List Byte}
    (hu : memWriteRange s a vs = .ok u) : u.Fetched := by
  obtain ⟨hrange, rfl⟩ := memWriteRange_eq_ok hu
  refine ⟨{ h.inv with memWf := Memory.wf_writeBytes h.inv.memWf a vs, memInBounds := ?_ }, h.enabled, h.pcFetched⟩
  rcases hrange with h0 | hin
  · rw [List.length_eq_zero_iff.mp h0]
    exact h.inv.memInBounds
  · exact Memory.inBounds_writeBytes h.inv.memInBounds hin

/-- A push of the return address keeps what an instruction needs (R31, R44 (d)). -/
theorem State.Fetched.of_push {s u : State} (h : s.Fetched) (hu : push s (s.pc + 2) = .ok u) : u.Fetched := by
  obtain ⟨hroom, rfl⟩ := push_eq_ok hu
  obtain ⟨heven, _⟩ := h.goodTarget_advance
  have hle : (s.pc + 2).toNat ≤ 0x1000 := by
    rw [h.toNat_pc_add (by decide)]
    exact Nat.add_le_add_right h.pcFetched 2
  refine ⟨{ h.inv with stackDepth := ?_, stackEntries := ?_ }, h.enabled, h.pcFetched⟩
  · simpa using hroom
  · intro a ha
    rcases List.mem_append.mp ha with ha | ha
    · exact h.inv.stackEntries a ha
    · rw [List.mem_singleton.mp ha]
      exact ⟨heven, hle⟩

/-- A pop keeps what an instruction needs, and the entry popped is a good target (R32, R44 (d)). -/
theorem State.Fetched.of_pop {s u : State} {v : Word} (h : s.Fetched) (hu : pop s = .ok (v, u)) :
    u.Fetched ∧ GoodTarget v := by
  obtain ⟨l, hl, rfl⟩ := pop_eq_ok hu
  have hdepth := h.inv.stackDepth
  have hentries := h.inv.stackEntries
  rw [hl] at hdepth hentries
  obtain ⟨heven, hle⟩ := hentries v (by simp)
  refine ⟨⟨{ h.inv with stackDepth := ?_, stackEntries := ?_ }, h.enabled, h.pcFetched⟩, heven, by omega⟩
  · exact (List.sublist_append_left l [v]).length_le.trans hdepth
  · exact fun a ha => hentries a (List.mem_append_left _ ha)

theorem exec_keepsInv (i : Instr) {s : State} (h : s.Fetched) : KeepsInv (exec i s) := by
  cases i with
  | cls => exact keepsInv_finish (h.of_taking rfl) nofun
  | sys => exact keepsInv_advance h
  | ldI | addI | ldF | ldDtVx | ldByte | addByte | ldReg | ldVxDt | rnd => exact keepsInv_advance (h.of_taking rfl)
  | orReg | andReg | xorReg => exact keepsInv_advance (h.of_taking rfl)
  | addReg | subReg | shrReg | subnReg | shlReg => exact keepsInv_advance (h.of_taking rfl)
  | ldVxK => exact keepsInv_finish h nofun
  | seByte | sneByte | seReg | sneReg => exact keepsInv_skipIf h _
  | skp | sknp => exact keepsInv_finishChecked h fun _ _ => keepsInv_skipIf h _
  | jp nnn =>
    refine keepsInv_jumpChecked h fun heven => keepsInv_jump h ⟨heven, ?_⟩
    rw [toNat_zextAddr]
    have := nnn.isLt
    omega
  | call nnn =>
    refine keepsInv_jumpChecked h fun heven => keepsInv_finishChecked h fun u hu =>
      keepsInv_jump (h.of_push hu) ⟨heven, ?_⟩
    rw [toNat_zextAddr]
    have := nnn.isLt
    omega
  | jpV0 nnn =>
    refine keepsInv_jumpChecked h fun heven => keepsInv_jump h ⟨heven, ?_⟩
    rw [toNat_indexedTarget]
    have := nnn.isLt
    have := (s.getV 0).isLt
    omega
  | ret =>
    refine keepsInv_finishChecked h fun ⟨v, u⟩ hu => ?_
    obtain ⟨hfetched, hv⟩ := h.of_pop hu
    exact keepsInv_jump hfetched hv
  | drw => exact keepsInv_finishChecked h fun _ _ => keepsInv_finish (h.of_taking rfl) nofun
  | ldStVx x =>
    refine keepsInv_advance (h.of_taking ?_)
    unfold emitTone
    split <;> rfl
  | ldB => exact keepsInv_finishChecked h fun u hu => keepsInv_advance (h.of_memWriteRange hu)
  | ldMemVx =>
    exact keepsInv_finishChecked h fun u hu => keepsInv_advance ((h.of_memWriteRange hu).of_taking rfl)
  | ldVxMem =>
    refine keepsInv_finishChecked h fun bytes _ => keepsInv_advance (h.of_taking ?_)
    rw [setRegBlock_regs_only]
    rfl

theorem instructionStep_keepsInv {s : State} (h : s.Inv) : KeepsInv (instructionStep s) := by
  intro t ht
  obtain ⟨hhalt, ⟨_, rfl⟩ | ⟨hwait, ⟨f, rfl⟩ | ⟨w, i, hfetch, _, hexec⟩⟩⟩ := instructionStep_next ht
  · exact h
  · exact h.raiseFatal hwait f
  · have hpc : s.pc.toNat ≤ 0xFFE := by
      rcases fetch_cases s with ⟨_, e⟩ | ⟨hlt, _⟩
      · cases e.symm.trans hfetch
      · exact Nat.le_of_lt_succ (Nat.lt_of_succ_lt_succ hlt)
    exact exec_keepsInv i ⟨h, ⟨hhalt, hwait⟩, hpc⟩ t hexec

/-! ### The events and reset -/

theorem timerTick_inv {s : State} (h : s.Inv) : (timerTick s).Inv := by
  unfold timerTick
  split
  · exact h
  · exact h.of_taking rfl

theorem keyRelease_inv {s : State} (h : s.Inv) (k : KeyId) : (keyRelease s k).Inv := by
  unfold keyRelease
  split
  · exact h
  · exact h.of_taking rfl

/-- The wait a press resolves was entered at a fetched PC, so PC + 2 is in range (R233). -/
theorem resolveWait_inv {s : State} (h : s.Inv) (hh : s.halt = none) (k : KeyId) : (resolveWait s k).Inv := by
  unfold resolveWait
  split
  · exact h
  · next x hw =>
    have hpc := h.waitFetched (by simp [hw])
    have hfetched : State.Fetched { s with wait := none } :=
      ⟨{ h with waitFetched := nofun, haltNotWaiting := fun _ => rfl }, ⟨hh, rfl⟩, hpc⟩
    exact (hfetched.inv_set_pc hfetched.goodTarget_advance).of_taking rfl

theorem keyPress_inv {s : State} (h : s.Inv) (k : KeyId) : (keyPress s k).Inv := by
  unfold keyPress
  split
  · exact h
  · next hc =>
    have hh : s.halt = none := by simp_all
    exact resolveWait_inv (s := { s with keys := s.keys.set k.val true, lastKey := some k }) (h.of_taking rfl) hh k

/-- Settles O56: the reset state's memory lists nothing, its stack is empty and its latches are clear. -/
theorem resetMeetsTheInvariants : Obligations.ResetMeetsTheInvariants where
  memWf := rfl
  memInBounds := nofun
  stackDepth := Nat.zero_le _
  stackEntries := nofun
  pcEven := rfl
  pcRange := by decide
  waitFetched := nofun
  haltNotWaiting := nofun

theorem boot_inv {rom : List Byte} {b : State} (h : boot rom = some b) : b.Inv := by
  have hreset : State.reset.Inv := resetMeetsTheInvariants
  rcases boot_cases rom with ⟨_, e⟩ | ⟨hlen, e⟩ <;> rw [e] at h <;> cases h
  have hin : Config.entry + rom.length ≤ Config.memSize := Nat.add_le_add_left hlen Config.entry
  exact { hreset with
    memWf := Memory.wf_writeBytes hreset.memWf _ _
    memInBounds := Memory.inBounds_writeBytes hreset.memInBounds hin }

theorem resetMove_keepsInv (s : State) (rom : List Byte) : KeepsInv (resetMove s rom) := by
  intro t ht
  rcases resetMove_cases s rom with ⟨_, e⟩ | ⟨b, hb, e⟩ <;> cases e.symm.trans ht
  exact (boot_inv hb).of_taking rfl

/-- Settles O57: the step begins without touching what the invariants speak of, and each of the five moves keeps
them. -/
theorem everyStepKeepsTheInvariants : Obligations.EveryStepKeepsTheInvariants := by
  intro s t h ht
  have hbegin : (beginStep s).Inv := h.of_taking rfl
  rw [step_of_nextMove rfl] at ht
  cases hm : nextMove s <;> rw [hm] at ht
  case instruction => exact instructionStep_keepsInv hbegin t ht
  case timerTick => cases ht; exact timerTick_inv hbegin
  case keyPress k => cases ht; exact keyPress_inv hbegin k
  case keyRelease k => cases ht; exact keyRelease_inv hbegin k
  case reset rom => exact resetMove_keepsInv _ rom t ht

end Sys2Proof.Machine
end

section
/-! PROOFS. The step (R120, R230): its five moves, the Fatals of the fetch and the decoder, the placed word, when a step
faults, and the events. -/

namespace Sys2Proof.Machine

/-! ### The five moves -/

theorem step_instruction {s : State} (h : nextMove s = .instruction) : step s = instructionStep (beginStep s) :=
  step_of_nextMove h

theorem step_timerTick {s : State} (h : nextMove s = .timerTick) : step s = .next (timerTick (beginStep s)) :=
  step_of_nextMove h

theorem step_keyPress {s : State} {k : KeyId} (h : nextMove s = .keyPress k) :
    step s = .next (keyPress (beginStep s) k) :=
  step_of_nextMove h

theorem step_keyRelease {s : State} {k : KeyId} (h : nextMove s = .keyRelease k) :
    step s = .next (keyRelease (beginStep s) k) :=
  step_of_nextMove h

theorem step_reset {s : State} {rom : List Byte} (h : nextMove s = .reset rom) :
    step s = resetMove (beginStep s) rom :=
  step_of_nextMove h

theorem resetMove_of_boot (s : State) {rom : List Byte} {b : State} (h : boot rom = some b) :
    resetMove s rom = .next { b with agenda := s.agenda, draws := s.draws } := by
  rw [resetMove, h]

/-- Settles O60: the three events are their moves as they stand, and a booted machine has emitted nothing. -/
theorem stepAppliesTheEventLinedUp : Obligations.StepAppliesTheEventLinedUp := by
  intro s
  refine ⟨step_timerTick, fun k => step_keyPress, fun k => step_keyRelease, fun rom b h hb => ?_⟩
  rw [step_reset h, resetMove_of_boot _ hb, ← boot_emitted hb]
  rfl

/-! ### The instruction step -/

/-- An enabled step whose word decodes is the instruction (R120). -/
theorem instructionStep_decoded {s : State} {w : Word} {i : Instr} (hs : s.enabled) (hf : fetch s = .ok w)
    (hd : decode w = .ok i) : instructionStep s = exec i s := by
  rw [instructionStep_enabled hs, fetchDecodeExec, hf, finishChecked_ok, hd]

/-- An enabled step whose word is refused enters UnknownOpcode (R98, R223). -/
theorem instructionStep_undecoded {s : State} {w : Word} {e : DecodeError} (hs : s.enabled) (hf : fetch s = .ok w)
    (hd : decode w = .error e) : instructionStep s = .next (raiseFatal s (.unknownOpcode w)) := by
  rw [instructionStep_enabled hs, fetchDecodeExec, hf, finishChecked_ok, hd]
  rfl

/-- Settles O8: the step begins without touching PC or MEM, so it fetches and runs that instruction. -/
theorem stepRunsTheDecodedInstruction : Obligations.StepRunsTheDecodedInstruction := by
  intro s i hs hm hpc hd
  rw [step_instruction hm]
  exact instructionStep_decoded (s := beginStep s) hs (fetch_inBounds (s := beginStep s) hpc) hd

/-- Settles O9: the fetch's Fatal comes first; a fetched word that decodes to nothing is UnknownOpcode. -/
theorem fetchAndDecodeFatals : Obligations.FetchAndDecodeFatals := by
  intro s hs
  constructor
  · intro hout
    exact ⟨_, instructionStep_fetch_error hs (fetch_outOfBounds hout), stoppedBy_raiseFatal s _⟩
  · intro hin w hw hundecoded
    have hf : fetch s = .ok w := by
      rw [fetch_inBounds hin, BitVec.eq_of_toNat_eq (hw.trans (toNat_wordOfBytes _ _).symm)]
    cases hd : decode w with
    | ok i => exact absurd hd (hundecoded i)
    | error e => exact ⟨_, instructionStep_undecoded hs hf hd, stoppedBy_raiseFatal s _⟩

/-- The placed word is what the next step fetches (R64). -/
theorem fetch_placeWord {s : State} (hm : s.mem.wf = true) (hpc : s.pc.toNat + 1 < Config.memSize) (w : Word) :
    fetch (placeWord s w) = .ok w := by
  have hread (k : Nat) (hk : k < (bytesOfWord w).length) :
      (placeWord s w).mem.read (s.pc.toNat + k) = (bytesOfWord w)[k] := Memory.read_writeBytes_inside hm hk
  have hhi : (placeWord s w).mem.read s.pc.toNat = w.extractLsb' 8 8 := hread 0 Nat.zero_lt_two
  have hlo : (placeWord s w).mem.read (s.pc.toNat + 1) = w.extractLsb' 0 8 := hread 1 Nat.one_lt_two
  exact (fetch_inBounds (s := placeWord s w) hpc).trans
    (congrArg Except.ok ((congrArg₂ wordOfBytes hhi hlo).trans (wordOfBytes_bytesOfWord w)))

/-- Settles O11: placing the word lines up an enabled instruction step, which fetches it. -/
theorem placedWordIsTheNextInstruction : Obligations.PlacedWordIsTheNextInstruction := by
  intro s n i hm hpc hn hd
  have hword : s.withFetchWord 16 n = placeWord s (BitVec.ofNat 16 n) := by
    rw [State.withFetchWord, Nat.mod_eq_of_lt (show n < 2 ^ 16 from hn)]
  rw [hword, step_instruction rfl]
  exact instructionStep_decoded (s := { placeWord s (BitVec.ofNat 16 n) with emitted := none }) ⟨rfl, rfl⟩
    (fetch_placeWord hm hpc _) hd

/-! ### When a step faults -/

theorem instructionStep_halted {s : State} {r : FatalReason} (h : s.halt = some r) :
    instructionStep s = .fault (.halted r) := by
  rw [instructionStep, h]

theorem instructionStep_waiting {s : State} {x : RegId} (hh : s.halt = none) (hw : s.wait = some x) :
    instructionStep s = .next s := by
  rw [instructionStep, hh, hw]

/-- A machine that has not stopped answers every instruction step (R120). -/
theorem instructionStep_running {s : State} (h : s.running) : ∃ t, instructionStep s = .next t := by
  cases hw : s.wait with
  | some x => exact ⟨s, instructionStep_waiting h hw⟩
  | none =>
    cases hf : fetch s with
    | error f => exact ⟨_, instructionStep_fetch_error ⟨h, hw⟩ hf⟩
    | ok w =>
      cases hd : decode w with
      | error e => exact ⟨_, instructionStep_undecoded ⟨h, hw⟩ hf hd⟩
      | ok i =>
        rw [instructionStep_decoded ⟨h, hw⟩ hf hd]
        exact everyInstructionAnswersNext i s

/-- Settles O13: by the move that is next, and for an instruction step by HALT. -/
theorem stepFaultsOnlyWhenHaltedOrRomTooLarge : Obligations.StepFaultsOnlyWhenHaltedOrRomTooLarge := by
  intro s
  cases hm : nextMove s with
  | timerTick => simp [step_timerTick hm]
  | keyPress k => simp [step_keyPress hm]
  | keyRelease k => simp [step_keyRelease hm]
  | instruction =>
    rw [step_instruction hm]
    cases hh : s.halt with
    | some r => simp [instructionStep_halted (s := beginStep s) hh, eq_comm]
    | none =>
      obtain ⟨t, ht⟩ := instructionStep_running (s := beginStep s) hh
      simp [ht]
  | reset rom =>
    rw [step_reset hm]
    rcases boot_cases rom with ⟨hlen, hb⟩ | ⟨hlen, hb⟩
    · simp [resetMove, hb, show 3584 < rom.length from hlen]
    · have : ¬ 3584 < rom.length := Nat.not_lt.mpr hlen
      simp [resetMove_of_boot _ hb, this]

/-! ### A stopped machine -/

theorem timerTick_halted {s : State} (h : s.halt ≠ none) : timerTick s = s :=
  if_pos (Option.isSome_iff_ne_none.mpr h)

theorem keyPress_halted {s : State} (h : s.halt ≠ none) (k : KeyId) : keyPress s k = s :=
  if_pos (by simp [Option.isSome_iff_ne_none.mpr h])

theorem keyRelease_halted {s : State} (h : s.halt ≠ none) (k : KeyId) : keyRelease s k = s :=
  if_pos (Option.isSome_iff_ne_none.mpr h)

/-- Settles O15: the events leave a stopped machine as the step began it, and reset builds one that runs from 0x200. -/
theorem onlyResetLeavesAFatal : Obligations.OnlyResetLeavesAFatal := by
  intro s r hr
  have hstopped : (beginStep s).halt ≠ none := by simp [beginStep, hr]
  have hframe : Unchanged [.emitted, .agenda] s (beginStep s) := unchanged_of_eq_taking rfl
  refine ⟨fun hm => ?_, fun hm => ⟨beginStep s, ?_, rfl, hframe⟩, fun rom hm hlen => ?_⟩
  · rw [step_instruction hm]
    exact instructionStep_halted (s := beginStep s) hr
  · rcases hm with hm | ⟨k, hm⟩ | ⟨k, hm⟩
    · rw [step_timerTick hm, timerTick_halted hstopped]
    · rw [step_keyPress hm, keyPress_halted hstopped]
    · rw [step_keyRelease hm, keyRelease_halted hstopped]
  · rcases boot_cases rom with ⟨hlarge, _⟩ | ⟨_, hb⟩
    · exact absurd hlen (Nat.not_le.mpr hlarge)
    · exact ⟨_, (step_reset hm).trans (resetMove_of_boot _ hb), rfl, rfl⟩

/-! ### The events of a running machine -/

theorem timerTick_running {s : State} (h : s.halt = none) :
    timerTick s = { s with dt := countDown s.dt, st := countDown s.st } := by
  simp [timerTick, h]

theorem keyRelease_running {s : State} (h : s.halt = none) (k : KeyId) :
    keyRelease s k = { s with keys := s.keys.set k.val false } := by
  simp [keyRelease, h]

theorem keyPress_held {s : State} {k : KeyId} (h : s.key k = true) : keyPress s k = s := by
  simp [keyPress, h]

theorem keyPress_released {s : State} {k : KeyId} (hh : s.halt = none) (hk : s.key k = false) :
    keyPress s k = resolveWait { s with keys := s.keys.set k.val true, lastKey := some k } k := by
  simp [keyPress, hh, hk]

/-- A key reads as it was set, the others as before (R37). -/
theorem getElem_keys_set (s : State) (k j : KeyId) (b : Bool) :
    (s.keys.set k.val b)[j.val] = if j = k then b else s.key j := by
  rw [Vector.getElem_set]
  by_cases h : j = k
  · simp [h]
  · rw [if_neg (fun e => h (Fin.ext e.symm)), if_neg h]
    rfl

/-- Settles O50: the tick is the countdown of both timers, each a subtraction that saturates. -/
theorem timerTickCountsDown : Obligations.TimerTickCountsDown := by
  intro s
  refine ⟨fun h => ?_, timerTick_halted⟩
  rw [timerTick_running h]
  exact ⟨countDown_toNat s.dt, countDown_toNat s.st, unchanged_of_eq_taking rfl⟩

/-- Settles O52: the release writes one key. -/
theorem keyReleaseReleasesOneKey : Obligations.KeyReleaseReleasesOneKey := by
  intro s k
  refine ⟨fun h => ?_, fun h => keyRelease_halted h k⟩
  rw [keyRelease_running h]
  refine ⟨?_, fun j hj => ?_, unchanged_of_eq_taking rfl⟩
  · exact (getElem_keys_set s k k false).trans (if_pos rfl)
  · exact (getElem_keys_set s k j false).trans (if_neg hj)

/-- A press of a released key with no wait pending records it and does no more (R232). -/
theorem keyPress_not_waiting {s : State} {k : KeyId} (hh : s.halt = none) (hk : s.key k = false) (hw : s.wait = none) :
    keyPress s k = { s with keys := s.keys.set k.val true, lastKey := some k } := by
  rw [keyPress_released hh hk, resolveWait, hw]

/-- A press of a released key resolves a pending wait in the same step (R233, D14). -/
theorem keyPress_waiting {s : State} {k : KeyId} {x : RegId} (hh : s.halt = none) (hk : s.key k = false)
    (hw : s.wait = some x) :
    keyPress s k = { s.setV x (BitVec.ofNat 8 k.val) with
      keys := s.keys.set k.val true, lastKey := some k, wait := none, pc := s.pc + 2 } := by
  rw [keyPress_released hh hk, resolveWait, hw]
  rfl

/-- A press that is not dropped records the key, whether or not it resolves a wait (R232). -/
theorem keyPress_records {s : State} {k : KeyId} (hh : s.halt = none) (hk : s.key k = false) :
    (keyPress s k).keys = s.keys.set k.val true ∧ (keyPress s k).lastKey = some k := by
  cases hw : s.wait with
  | none => rw [keyPress_not_waiting hh hk hw]; exact ⟨rfl, rfl⟩
  | some x => rw [keyPress_waiting hh hk hw]; exact ⟨rfl, rfl⟩

/-- A number below 256 keeps its value as a byte. -/
theorem toNat_ofNat_byte {n : Nat} (h : n < 256) : (BitVec.ofNat 8 n).toNat = n := by
  rw [BitVec.toNat_ofNat, Nat.mod_eq_of_lt h]

/-- Settles O51: a press that is not dropped writes one key whether or not a wait is pending, and resolves the wait if
one is. -/
theorem keyPressResolvesTheWait : Obligations.KeyPressResolvesTheWait := by
  intro s k
  constructor
  · rintro (h | h)
    · exact keyPress_halted h k
    · exact keyPress_held h
  · intro hh hk
    obtain ⟨hkeys, hlast⟩ := keyPress_records hh hk
    have hkey (j : KeyId) : (keyPress s k).key j = if j = k then true else s.key j := by
      rw [← getElem_keys_set s k j true]
      simp only [State.key, hkeys]
    refine ⟨(hkey k).trans (if_pos rfl), fun j hj => (hkey j).trans (if_neg hj), hlast, fun hw => ?_, fun x hw => ?_⟩
    · rw [keyPress_not_waiting hh hk hw]
      exact unchanged_of_eq_taking rfl
    · rw [keyPress_waiting hh hk hw]
      have hvalue := getV_setV_same s x (BitVec.ofNat 8 k.val)
      exact ⟨rfl, rfl, (congrArg BitVec.toNat hvalue).trans (toNat_ofNat_byte (by omega)), regsKept_setV s x _,
        unchanged_of_eq_taking rfl⟩

end Sys2Proof.Machine
end

section
/-! PROOFS. Runs (R202, R230, R240, R260): the machine of a ROM, a key wait that lasts, and the scheduler's ticks. -/

namespace Sys2Proof.Machine

/-! ### Reset -/

theorem initial_of_font_le {a : Nat} (h : 80 ≤ a) : Memory.initial a = 0 := by
  refine if_neg fun ⟨_, hlt⟩ => ?_
  have : a < 0 + 80 := hlt
  omega

/-- Settles O54: the fields are those of the reset state as written, and beyond the font a byte reads as 0. -/
theorem resetIsTheSpecsState : Obligations.ResetIsTheSpecsState := by
  refine ⟨rfl, by decide, rfl, rfl, rfl, rfl, pixel_clear, by decide, rfl, rfl, rfl, by decide, fun a ha => ?_⟩
  exact initial_of_font_le ha

/-- Settles O55: the image is a range write to the reset memory, which is in canonical form. -/
theorem bootCopiesTheRomVerbatim : Obligations.BootCopiesTheRomVerbatim := by
  intro rom
  rcases boot_cases rom with ⟨hlarge, hb⟩ | ⟨hfits, hb⟩
  · exact ⟨fun _ => hb, fun h => absurd h (Nat.not_le.mpr hlarge)⟩
  · refine ⟨fun h => absurd hfits (Nat.not_le.mpr h), fun _ => ⟨_, hb, fun k hk => ?_, fun a ha => ?_, ?_⟩⟩
    · rw [List.getD_eq_getElem _ _ hk]
      exact Memory.read_writeBytes_inside rfl hk
    · exact Memory.read_writeBytes_outside ha
    · exact unchanged_of_eq_taking rfl

/-! ### The key wait -/

theorem Part.same_trans {s t u : State} {p : Part} (h : p.same s t) (h' : p.same t u) : p.same s u := by
  cases p with
  | regs | keys | mem => exact fun q => (h' q).trans (h q)
  | fb => exact fun r c => (h' r c).trans (h r c)
  | _ => exact Eq.trans h' h

theorem Unchanged.trans {s t u : State} {l : List Part} (h : Unchanged l s t) (h' : Unchanged l t u) :
    Unchanged l s u :=
  fun p hp => Part.same_trans (h p hp) (h' p hp)

/-- A move that neither presses a key nor resets. -/
def Move.isQuiet : Move → Prop
  | .instruction | .timerTick | .keyRelease _ => True
  | .keyPress _ | .reset _ => False

/-- A waiting machine with nothing but quiet moves lined up. -/
structure QuietWait (s : State) : Prop where
  notHalted : s.halt = none
  waiting : s.wait.isSome
  quiet : ∀ m ∈ s.agenda, m.isQuiet

theorem quiet_nextMove {s : State} (h : ∀ m ∈ s.agenda, m.isQuiet) : (nextMove s).isQuiet := by
  unfold nextMove
  cases ha : s.agenda with
  | nil => exact trivial
  | cons m ms => exact h m (by simp [ha])

/-- A quiet step of a waiting machine leaves it waiting, with the parts no such step writes (R202). -/
theorem QuietWait.step {s : State} (h : QuietWait s) :
    ∃ t, step s = .next t ∧ QuietWait t ∧ Unchanged [.dt, .st, .keys, .emitted, .agenda] s t := by
  have hquiet := quiet_nextMove h.quiet
  have hrest : ∀ m ∈ s.agenda.tail, m.isQuiet := fun m hm => h.quiet m (List.mem_of_mem_tail hm)
  obtain ⟨x, hx⟩ := Option.isSome_iff_exists.mp h.waiting
  cases hm : nextMove s with
  | instruction =>
    refine ⟨beginStep s, ?_, ⟨h.notHalted, h.waiting, hrest⟩, unchanged_of_eq_taking rfl⟩
    rw [step_instruction hm]
    exact instructionStep_waiting (s := beginStep s) h.notHalted hx
  | timerTick =>
    refine ⟨_, step_timerTick hm, ?_⟩
    rw [timerTick_running (s := beginStep s) h.notHalted]
    exact ⟨⟨h.notHalted, h.waiting, hrest⟩, unchanged_of_eq_taking rfl⟩
  | keyRelease k =>
    refine ⟨_, step_keyRelease hm, ?_⟩
    rw [keyRelease_running (s := beginStep s) h.notHalted]
    exact ⟨⟨h.notHalted, h.waiting, hrest⟩, unchanged_of_eq_taking rfl⟩
  | keyPress k => exact absurd hquiet (by simp [hm, Move.isQuiet])
  | reset rom => exact absurd hquiet (by simp [hm, Move.isQuiet])

theorem run_succ_of_step {s u : State} (h : step s = .next u) (n : Nat) :
    Sys2Proof.core.run (n + 1) s = Sys2Proof.core.run n u := by
  have hcore : Sys2Proof.core.step s = .next u := h
  simp only [Host.Core.run, hcore]

theorem QuietWait.run {s : State} (h : QuietWait s) (n : Nat) :
    ∃ t, Sys2Proof.core.run n s = .next t ∧ Unchanged [.dt, .st, .keys, .emitted, .agenda] s t := by
  induction n generalizing s with
  | zero => exact ⟨s, rfl, unchanged_of_eq_taking rfl⟩
  | succ n ih =>
    obtain ⟨u, hstep, hu, hsu⟩ := h.step
    obtain ⟨t, hrun, hut⟩ := ih hu
    exact ⟨t, (run_succ_of_step hstep n).trans hrun, hsu.trans hut⟩

/-- Settles O53: the moves named are the quiet ones, and a quiet wait lasts through any run. -/
theorem waitLastsUntilAKeyPress : Obligations.WaitLastsUntilAKeyPress := by
  rintro ms s x hh hw rfl hms n
  refine QuietWait.run ⟨hh, by simp [hw], fun m hm => ?_⟩ n
  obtain ⟨hpress, hreset⟩ := hms m hm
  cases m with
  | instruction | timerTick | keyRelease => exact trivial
  | keyPress k => exact absurd rfl (hpress k)
  | reset rom => exact absurd rfl (hreset rom)

/-! ### The scheduler -/

/-- The redraws among the events of a run. -/
def redraws (es : List Output) : List Signal := (es.map Signal.event).filter isRedraw

/-- A redraw ends the run, so no event follows it (R240, R241). -/
theorem length_redraws_runPhase (n : Nat) (s : State) : (redraws (runPhase n s).2).length ≤ 1 := by
  induction n generalizing s with
  | zero => exact Nat.zero_le _
  | succ n ih =>
    unfold runPhase
    split
    · exact Nat.zero_le _
    · split
      · split
        · exact ih _
        · next e _ =>
          cases e with
          | redraw => exact Nat.le_refl 1
          | shutdown => exact Nat.zero_le _
          | tone => exact ih _
      · exact Nat.zero_le _
      · exact Nat.zero_le _

/-- Settles O58: the signals of a tick are those of its run phase, or the one of a close request. -/
theorem tickRedrawsAtMostOnce : Obligations.TickRedrawsAtMostOnce := by
  intro n c
  unfold tickWith
  split
  · exact Nat.zero_le _
  · exact length_redraws_runPhase n (drain c).core

theorem runPhase_waiting (n : Nat) {s : State} (h : s.wait ≠ none) : runPhase n s = (s, []) := by
  cases n with
  | zero => rfl
  | succ n => exact if_pos (by simp [Option.isSome_iff_ne_none.mpr h])

/-- Settles O59: an empty queue drains to nothing, and the run phase of a waiting core is empty. -/
theorem waitingTickOnlyCountsDown : Obligations.WaitingTickOnlyCountsDown := by
  intro n c hq hc hw
  obtain ⟨core, queue, fast, closing⟩ := c
  cases hq
  cases hc
  have hdrain : drain ⟨core, [], fast, false⟩ = ⟨core, [], fast, false⟩ := rfl
  rw [tickWith, hdrain, runPhase_waiting n hw]
  rfl

end Sys2Proof.Machine
end

section
/-! PROOFS. Control flow, keypad and timer instructions (R122 to R129, R200 to R208): the alignment check, the stack and
the answers of JP, CALL, RET, JP V0, SKP, SKNP and the timer loads. -/

namespace Sys2Proof.Machine

/-! ### Jumps and the stack -/

theorem jumpChecked_of_odd {s : State} {a : Word} {k : Host.Outcome State Fault Refusal} (h : a.toNat % 2 = 1) :
    jumpChecked quirks.oddTarget s a k = .next (raiseFatal s (.misalignedTarget a)) := by
  rw [jumpChecked, targetFatal_of_odd h]
  rfl

theorem jumpChecked_of_even {s : State} {a : Word} {k : Host.Outcome State Fault Refusal} (h : a.toNat % 2 = 0) :
    jumpChecked quirks.oddTarget s a k = k := by
  rw [jumpChecked, targetFatal_of_even h]

theorem exec_jp_of_even {nnn : Addr12} (h : nnn.toNat % 2 = 0) (s : State) :
    exec (.jp nnn) s = .next { s with pc := zextAddr nnn } :=
  jumpChecked_of_even ((toNat_zextAddr nnn).symm ▸ h)

theorem exec_jp_of_odd {nnn : Addr12} (h : nnn.toNat % 2 = 1) (s : State) :
    exec (.jp nnn) s = .next (raiseFatal s (.misalignedTarget (zextAddr nnn))) :=
  jumpChecked_of_odd ((toNat_zextAddr nnn).symm ▸ h)

/-- Settles O20: the widened target keeps its value, so the check is on the operand's last bit. -/
theorem jumpGoesToEvenTargetsOnly : Obligations.JumpGoesToEvenTargetsOnly := by
  intro nnn s
  exact ⟨fun h => ⟨_, exec_jp_of_even h s, toNat_zextAddr nnn, unchanged_set_pc s _⟩,
    fun h => ⟨_, exec_jp_of_odd h s, stoppedBy_raiseFatal s _⟩⟩

theorem exec_jpV0_of_even {nnn : Addr12} {s : State} (h : (nnn.toNat + (s.getV 0).toNat) % 2 = 0) :
    exec (.jpV0 nnn) s = .next { s with pc := indexedTarget s nnn } :=
  jumpChecked_of_even ((toNat_indexedTarget s nnn).symm ▸ h)

theorem exec_jpV0_of_odd {nnn : Addr12} {s : State} (h : (nnn.toNat + (s.getV 0).toNat) % 2 = 1) :
    exec (.jpV0 nnn) s = .next (raiseFatal s (.misalignedTarget (indexedTarget s nnn))) :=
  jumpChecked_of_odd ((toNat_indexedTarget s nnn).symm ▸ h)

/-- Settles O24: the target is the plain sum. -/
theorem indexedJumpAddsV0 : Obligations.IndexedJumpAddsV0 := by
  intro nnn s
  have htarget := toNat_indexedTarget s nnn
  refine ⟨fun h => ⟨_, exec_jpV0_of_even h, htarget, unchanged_set_pc s _⟩, fun h => ⟨_, exec_jpV0_of_odd h, ?_⟩⟩
  rw [← Decode.eq_ofNat_of_toNat htarget]
  exact stoppedBy_raiseFatal s _

theorem exec_call_of_odd {nnn : Addr12} (h : nnn.toNat % 2 = 1) (s : State) :
    exec (.call nnn) s = .next (raiseFatal s (.misalignedTarget (zextAddr nnn))) :=
  jumpChecked_of_odd ((toNat_zextAddr nnn).symm ▸ h)

theorem exec_call_of_full {nnn : Addr12} {s : State} (h : nnn.toNat % 2 = 0)
    (hfull : Config.stackDepth ≤ s.stack.length) :
    exec (.call nnn) s = .next (raiseFatal s .stackOverflow) := by
  refine (jumpChecked_of_even ((toNat_zextAddr nnn).symm ▸ h)).trans ?_
  rw [push, if_pos hfull]
  rfl

theorem exec_call_of_room {nnn : Addr12} {s : State} (h : nnn.toNat % 2 = 0)
    (hroom : s.stack.length < Config.stackDepth) :
    exec (.call nnn) s = .next { s with stack := s.stack ++ [s.pc + 2], pc := zextAddr nnn } := by
  refine (jumpChecked_of_even ((toNat_zextAddr nnn).symm ▸ h)).trans ?_
  rw [push, if_neg (Nat.not_le.mpr hroom)]
  rfl

/-- Settles O21: alignment first, then the stack's room. -/
theorem callPushesTheReturnAddress : Obligations.CallPushesTheReturnAddress := by
  intro nnn s
  exact ⟨fun h => ⟨_, exec_call_of_odd h s, stoppedBy_raiseFatal s _⟩,
    fun h hfull => ⟨_, exec_call_of_full h hfull, stoppedBy_raiseFatal s _⟩,
    fun h hroom => ⟨_, exec_call_of_room h hroom, toNat_zextAddr nnn, rfl, unchanged_of_eq_taking rfl⟩⟩

theorem exec_ret_of_empty {s : State} (h : s.stack = []) : exec .ret s = .next (raiseFatal s .stackUnderflow) := by
  change finishChecked s (pop s) _ = _
  rw [pop, h]
  rfl

theorem exec_ret_of_concat {s : State} {l : List Word} {a : Word} (h : s.stack = l ++ [a]) :
    exec .ret s = .next { s with stack := l, pc := a } := by
  change finishChecked s (pop s) _ = _
  simp [pop, h]

/-- Settles O19: the stack is empty, or its last entry is the newest. -/
theorem retPopsTheNewestAddress : Obligations.RetPopsTheNewestAddress := by
  constructor
  · intro s h
    exact ⟨_, exec_ret_of_empty h, stoppedBy_raiseFatal s _⟩
  · intro s l a h
    exact ⟨_, exec_ret_of_concat h, rfl, rfl, unchanged_of_eq_taking rfl⟩

/-- Settles O22: what CALL pushed is what RET pops, and the stack is the one before both. -/
theorem retAfterCallComesBack : Obligations.RetAfterCallComesBack := by
  intro nnn s h hroom
  exact ⟨_, _, exec_call_of_room h hroom, exec_ret_of_concat rfl, rfl, unchanged_of_eq_taking rfl⟩

/-! ### Keys -/

theorem exec_skp (x : RegId) (s : State) :
    exec (.skp x) s = finishChecked s (keyOperand (s.getV x)) fun k => skipIf s (s.key k) := rfl

theorem exec_sknp (x : RegId) (s : State) :
    exec (.sknp x) s = finishChecked s (keyOperand (s.getV x)) fun k => skipIf s (!s.key k) := rfl

theorem keyOperand_of_key {v : Byte} {k : KeyId} (h : v.toNat = k.val) : keyOperand v = .ok k := by
  rcases keyOperand_cases v with ⟨hge, _⟩ | ⟨_, e⟩
  · omega
  · rw [e]
    exact congrArg _ (Fin.ext h)

theorem keyOperand_of_large {v : Byte} (h : 15 < v.toNat) : keyOperand v = .error (.badKeyIndex v) := by
  rcases keyOperand_cases v with ⟨_, e⟩ | ⟨hlt, _⟩
  · exact e
  · omega

/-- Settles O47: Vx is a key's index, and the skip is on its state, or it is none and the check stops both. -/
theorem keySkipsSampleTheKeypad : Obligations.KeySkipsSampleTheKeypad := by
  intro x s
  rw [exec_skp, exec_sknp]
  refine ⟨fun k hk => ?_, fun h => ?_⟩
  · rw [keyOperand_of_key hk, finishChecked_ok, finishChecked_ok]
    refine ⟨skipIf_next s _, ?_⟩
    simpa only [Bool.not_eq_true', ← Bool.not_eq_true, ite_not] using skipIf_next s (!s.key k)
  · rw [keyOperand_of_large h]
    exact ⟨⟨_, rfl, stoppedBy_raiseFatal s _⟩, ⟨_, rfl, stoppedBy_raiseFatal s _⟩⟩

/-- Settles O48: LD Vx, K is its outcome, which writes the latch alone. -/
theorem keyWaitFreezesPC : Obligations.KeyWaitFreezesPC := by
  intro x s
  exact ⟨{ s with wait := some x }, rfl, rfl, unchanged_of_eq_taking rfl⟩

/-! ### Timers -/

theorem exec_ldVxDt (x : RegId) (s : State) : exec (.ldVxDt x) s = finish (s.setV x s.dt) .advance := rfl

/-- LD ST, Vx in full: the tone is that of the value written, and none for 0 (R208). -/
theorem exec_ldStVx (x : RegId) (s : State) :
    exec (.ldStVx x) s = .next { s with
      st := s.getV x
      emitted := if s.getV x = 0 then s.emitted else some (.tone (s.getV x))
      pc := s.pc + 2 } := by
  change finish (emitTone _ _) .advance = _
  unfold emitTone
  split <;> rfl

/-- Settles O49: LD Vx, DT is a store in Vx that advances; the other two write a timer. -/
theorem timerInstructions : Obligations.TimerInstructions := by
  intro x s
  refine ⟨?_, ⟨{ s with dt := s.getV x, pc := s.pc + 2 }, rfl, rfl, rfl, unchanged_of_eq_taking rfl⟩,
    ⟨_, exec_ldStVx x s, rfl, rfl, rfl, unchanged_of_eq_taking rfl⟩⟩
  rw [exec_ldVxDt]
  exact finish_setV_advance_next s x s.dt

end Sys2Proof.Machine
end

section
/-! PROOFS. Arithmetic, logic, shifts and RND (R141 to R163): the values and flags as numbers, and the answer of an
instruction that writes a result and a flag. -/

namespace Sys2Proof.Machine

/-! ### Values and flags -/

theorem toNat_addBytes (a b : Byte) : (addBytes a b).toNat = (a.toNat + b.toNat) % 256 := by
  simp [addBytes]

theorem toNat_subBytes (a b : Byte) : (subBytes a b).toNat = (a.toNat + 256 - b.toNat) % 256 := by
  simp [subBytes]

theorem flagByte_decide (p : Prop) [Decidable p] : flagByte (decide p) = if p then 1 else 0 := by
  simp [flagByte]

theorem toNat_flagByte (c : Bool) : (flagByte c).toNat = c.toNat := by
  cases c <;> rfl

theorem toNat_shrFlag (v : Byte) : (shrFlag v).toNat = v.toNat % 2 := by
  rw [shrFlag, toNat_flagByte, BitVec.getLsbD, Nat.testBit_zero]
  rcases Nat.mod_two_eq_zero_or_one v.toNat with h | h <;> simp [h]

theorem toNat_shlFlag (v : Byte) : (shlFlag v).toNat = v.toNat / 128 := by
  have := v.isLt
  rw [shlFlag, toNat_flagByte, BitVec.getLsbD, Nat.testBit_eq_decide_div_mod_eq]
  rcases Nat.lt_or_ge v.toNat 128 with h | h
  · simp [Nat.div_eq_of_lt h]
  · have : v.toNat / 128 = 1 := by omega
    simp [this]

theorem toNat_shiftRight_one (v : Byte) : (v >>> 1).toNat = v.toNat / 2 := by
  simp [Nat.shiftRight_eq_div_pow]

theorem toNat_shiftLeft_one (v : Byte) : (v <<< 1).toNat = v.toNat * 2 % 256 := by
  simp [Nat.shiftLeft_eq]

/-! ### The instructions -/

/-- The answer of an instruction that writes a result to Vx, then a flag to VF, and advances (R143, D32). -/
theorem finish_writeResultFlag_next (s : State) (x : RegId) (r f : Byte) :
    ∃ t, finish (writeResultFlag s x r f) .advance = .next t ∧ t.getV 15 = f ∧ (x ≠ 15 → t.getV x = r) ∧
      RegsKept [x, 15] s t ∧ t.pc = s.pc + 2 ∧ Unchanged [.regs, .pc] s t := by
  refine ⟨_, rfl, ?_, fun hx => ?_, fun q hq => ?_, rfl, unchanged_of_eq_taking rfl⟩
  · exact (getV_writeResultFlag s x 15 r f).trans (if_pos rfl)
  · exact (getV_writeResultFlag s x x r f).trans ((if_neg hx).trans (if_pos rfl))
  · simp only [List.mem_cons, List.not_mem_nil, or_false, not_or] at hq
    exact (getV_writeResultFlag s x q r f).trans ((if_neg hq.2).trans (if_neg hq.1))

theorem exec_addByte (x : RegId) (kk : Byte) (s : State) :
    exec (.addByte x kk) s = finish (s.setV x (addBytes (s.getV x) kk)) .advance := rfl

/-- Settles O26: a store of the wrapped sum in Vx that advances. -/
theorem addByteWrapsAndKeepsVF : Obligations.AddByteWrapsAndKeepsVF := by
  intro x kk s
  rw [exec_addByte]
  obtain ⟨t, ht, hx, hrest⟩ := finish_setV_advance_next s x (addBytes (s.getV x) kk)
  exact ⟨t, ht, hx ▸ toNat_addBytes _ _, hrest⟩

/-- Settles O28: the result is the wrapped sum, the flag the carry. -/
theorem addSetsCarry : Obligations.AddSetsCarry := by
  intro x y s
  obtain ⟨t, ht, hflag, hx, hrest⟩ := finish_writeResultFlag_next s x (addBytes (s.getV x) (s.getV y))
    (carryFlag (s.getV x) (s.getV y))
  exact ⟨t, ht, hflag.trans (flagByte_decide _), fun hne => (hx hne) ▸ toNat_addBytes _ _, hrest⟩

/-- SUB and SUBN alike: the wrapped difference of two bytes and their no-borrow flag (R151, R153). -/
theorem finish_difference_next (s : State) (x : RegId) (a b : Byte) :
    ∃ t, finish (writeResultFlag s x (subBytes a b) (noBorrowFlag a b)) .advance = .next t ∧
      t.getV 15 = (if b.toNat ≤ a.toNat then 1 else 0) ∧
      (x ≠ 15 → (t.getV x).toNat = (a.toNat + 256 - b.toNat) % 256) ∧
      RegsKept [x, 15] s t ∧ t.pc = s.pc + 2 ∧ Unchanged [.regs, .pc] s t := by
  obtain ⟨t, ht, hflag, hx, hrest⟩ := finish_writeResultFlag_next s x (subBytes a b) (noBorrowFlag a b)
  exact ⟨t, ht, hflag.trans (flagByte_decide _), fun hne => (hx hne) ▸ toNat_subBytes a b, hrest⟩

/-- Settles O29: both are differences, of Vx and Vy in the two orders. -/
theorem subtractionsSetNoBorrow : Obligations.SubtractionsSetNoBorrow := fun x y s =>
  ⟨finish_difference_next s x (s.getV x) (s.getV y), finish_difference_next s x (s.getV y) (s.getV x)⟩

/-- Settles O30: the operand is Vy, the flag its bit shifted out. -/
theorem shiftsTakeVyAndSetTheBitShiftedOut : Obligations.ShiftsTakeVyAndSetTheBitShiftedOut := by
  intro x y s
  constructor
  · obtain ⟨t, ht, hflag, hx, hrest⟩ := finish_writeResultFlag_next s x (s.getV y >>> 1) (shrFlag (s.getV y))
    exact ⟨t, ht, hflag ▸ toNat_shrFlag _, fun hne => (hx hne) ▸ toNat_shiftRight_one _, hrest⟩
  · obtain ⟨t, ht, hflag, hx, hrest⟩ := finish_writeResultFlag_next s x (s.getV y <<< 1) (shlFlag (s.getV y))
    exact ⟨t, ht, hflag ▸ toNat_shlFlag _, fun hne => (hx hne) ▸ toNat_shiftLeft_one _, hrest⟩

/-- Settles O31: under VX the operand is Vx, as under VY with y = x. -/
theorem shiftsUnderVxReadVx : Obligations.ShiftsUnderVxReadVx := fun _ _ _ => ⟨rfl, rfl⟩

/-- The answer of OR, AND and XOR under either value of Q_LOGIC_VF_RESET (R147). -/
theorem finish_writeLogic_next (b : Bool) (s : State) (x : RegId) (r : Byte) :
    ∃ t, finish (writeLogic b s x r) .advance = .next t ∧ (x ≠ 15 → t.getV x = r) ∧
      t.getV 15 = (if b then 0 else if x = 15 then r else s.getV 15) ∧
      RegsKept [x, 15] s t ∧ t.pc = s.pc + 2 ∧ Unchanged [.regs, .pc] s t := by
  refine ⟨_, rfl, fun hx => ?_, ?_, fun q hq => ?_, rfl, unchanged_of_eq_taking rfl⟩
  · exact (getV_writeLogic b s x x r).trans ((if_neg fun h => hx h.1).trans (if_pos rfl))
  · refine (getV_writeLogic b s x 15 r).trans ?_
    simp [eq_comm]
  · simp only [List.mem_cons, List.not_mem_nil, or_false, not_or] at hq
    exact (getV_writeLogic b s x q r).trans ((if_neg fun h => hq.2 h.1).trans (if_neg hq.1))

/-- Settles O27: the three are one write, of the bitwise result. -/
theorem logicResultsAndVF : Obligations.LogicResultsAndVF := by
  intro x y s p hp
  simp only [List.mem_cons, List.not_mem_nil, or_false] at hp
  rcases hp with rfl | rfl | rfl <;> exact finish_writeLogic_next quirks.logicVfReset s x _

theorem exec_rnd (x : RegId) (kk : Byte) (s : State) :
    exec (.rnd x kk) s =
      finish (State.setV { s with draws := s.draws + 1 } x (Config.freeByte s.draws &&& kk)) .advance := rfl

theorem and_and_not (a b : Byte) : a &&& b &&& ~~~b = 0 := by
  rw [BitVec.and_assoc, BitVec.and_not_self]
  exact BitVec.and_zero

/-- Settles O32: whatever the free byte is, its bits outside the mask are cleared, and the draw is counted. -/
theorem rndMasksTheDrawnByte : Obligations.RndMasksTheDrawnByte := by
  intro x kk s
  rw [exec_rnd]
  have hx := getV_setV_same { s with draws := s.draws + 1 } x (Config.freeByte s.draws &&& kk)
  refine ⟨_, rfl, hx, ?_, rfl, ?_, rfl, unchanged_of_eq_taking rfl⟩
  · exact (congrArg (· &&& ~~~kk) hx).trans (and_and_not _ kk)
  · exact regsKept_setV { s with draws := s.draws + 1 } x _

end Sys2Proof.Machine
end

section
/-! PROOFS. Index register and memory transfers (R68, R75, R171 to R175), and memory's canonical form (R33). -/

namespace Sys2Proof.Machine

/-! ### Validated ranges -/

theorem memWriteRange_of_exceeds {s : State} {a : Nat} {vs : List Byte} (h0 : 0 < vs.length)
    (h : Config.memSize < a + vs.length) :
    memWriteRange s a vs = .error (.memOutOfBounds (a + vs.length - 1)) := by
  rcases memWriteRange_cases s a vs with ⟨_, _, e⟩ | ⟨hfits, _⟩
  · exact e
  · omega

theorem memWriteRange_of_fits {s : State} {a : Nat} {vs : List Byte} (h : a + vs.length ≤ Config.memSize) :
    memWriteRange s a vs = .ok { s with mem := s.mem.writeBytes a vs } := by
  rcases memWriteRange_cases s a vs with ⟨hlarge, _, _⟩ | ⟨_, e⟩
  · omega
  · exact e

theorem memReadRange_of_exceeds {s : State} {a n : Nat} (h0 : 0 < n) (h : Config.memSize < a + n) :
    memReadRange s a n = .error (.memOutOfBounds (a + n - 1)) := by
  rcases memReadRange_cases s a n with ⟨_, _, e⟩ | ⟨hfits, _⟩
  · exact e
  · omega

theorem memReadRange_of_fits {s : State} {a n : Nat} (h : n = 0 ∨ a + n ≤ Config.memSize) :
    memReadRange s a n = .ok (s.mem.readBytes a n) := by
  rcases memReadRange_cases s a n with ⟨hlarge, h0, _⟩ | ⟨_, e⟩
  · omega
  · exact e

/-! ### The index register -/

theorem toNat_zextByte (v : Byte) : (zextByte v).toNat = v.toNat :=
  BitVec.toNat_setWidth_of_le (by decide)

theorem toNat_and_0F (v : Byte) : (v &&& 0x0F).toNat = v.toNat % 16 := by
  rw [BitVec.toNat_and]
  exact Nat.and_two_pow_sub_one_eq_mod v.toNat 4

/-- With the font at 0 the glyph of a nibble lies at five times it (R172, D6). -/
theorem toNat_glyphAddress (v : Byte) : (glyphAddress quirks.fontBase v).toNat = 5 * (v.toNat % 16) := by
  have haddr : glyphAddress quirks.fontBase v = BitVec.ofNat 16 (0 + 5 * (v &&& 0x0F).toNat) := rfl
  rw [haddr, toNat_and_0F, BitVec.toNat_ofNat]
  omega

theorem exec_addI (x : RegId) (s : State) :
    exec (.addI x) s = finish { s with i := s.i + zextByte (s.getV x) } .advance := rfl

theorem exec_ldF (x : RegId) (s : State) :
    exec (.ldF x) s = finish { s with i := glyphAddress quirks.fontBase (s.getV x) } .advance := rfl

/-- Settles O34: both are a write of I that advances. -/
theorem indexArithmetic : Obligations.IndexArithmetic := by
  intro x s
  rw [exec_addI, exec_ldF]
  constructor
  · obtain ⟨t, ht, hi, hrest⟩ := finish_set_i_advance_next s (s.i + zextByte (s.getV x))
    refine ⟨t, ht, ?_, hrest⟩
    rw [hi, BitVec.toNat_add, toNat_zextByte]
  · obtain ⟨t, ht, hi, hrest⟩ := finish_set_i_advance_next s (glyphAddress quirks.fontBase (s.getV x))
    exact ⟨t, ht, hi ▸ toNat_glyphAddress _, hrest⟩

/-! ### Stores -/

theorem exec_ldB (x : RegId) (s : State) :
    exec (.ldB x) s =
      finishChecked s (memWriteRange s s.i.toNat (bcdDigits (s.getV x))) fun t => finish t .advance := rfl

/-- Settles O35: the three bytes are a range write, of the digits in order. -/
theorem bcdStoresThreeDigits : Obligations.BcdStoresThreeDigits := by
  intro x s
  rw [exec_ldB]
  constructor
  · intro h
    rw [memWriteRange_of_exceeds (vs := bcdDigits (s.getV x)) (Nat.succ_pos 2) (Nat.lt_succ_of_le h)]
    exact ⟨_, rfl, stoppedBy_raiseFatal s _⟩
  · intro h hm
    rw [memWriteRange_of_fits (show s.i.toNat + 3 ≤ 4096 from h)]
    have hv := (s.getV x).isLt
    have hread (k : Nat) (hk : k < 3) : (s.mem.writeBytes s.i.toNat (bcdDigits (s.getV x))).read (s.i.toNat + k) =
        (bcdDigits (s.getV x))[k]'hk := Memory.read_writeBytes_inside hm hk
    refine ⟨_, rfl, ?_, ?_, ?_, fun _ hb => Memory.read_writeBytes_outside hb, rfl, unchanged_of_eq_taking rfl⟩
    · exact (congrArg BitVec.toNat (hread 0 (by decide))).trans (toNat_ofNat_byte (by omega))
    · exact (congrArg BitVec.toNat (hread 1 (by decide))).trans (toNat_ofNat_byte (by omega))
    · exact (congrArg BitVec.toNat (hread 2 (by decide))).trans (toNat_ofNat_byte (by omega))

theorem storeBlockWith_of_exceeds (incI : Bool) {x : RegId} {s : State} (h : Config.memSize ≤ s.i.toNat + x.val) :
    storeBlockWith incI x s = .next (raiseFatal s (.memOutOfBounds (s.i.toNat + x.val))) := by
  rw [storeBlockWith, memWriteRange_of_exceeds (by simp) (by rw [length_regBlock]; omega), length_regBlock]
  rfl

theorem storeBlockWith_of_fits (incI : Bool) {x : RegId} {s : State} (h : s.i.toNat + x.val < Config.memSize) :
    storeBlockWith incI x s = .next { s with
      mem := s.mem.writeBytes s.i.toNat (regBlock s x), i := indexAfterBlock incI s.i x, pc := s.pc + 2 } := by
  rw [storeBlockWith, memWriteRange_of_fits (by rw [length_regBlock]; omega)]
  rfl

/-- A block inside MEM ends below 2^16, so I does not wrap (R174, R175). -/
theorem toNat_indexAfterBlock {i : Word} {x : RegId} (h : i.toNat + x.val < 4096) :
    (indexAfterBlock true i x).toNat = i.toNat + x.val + 1 := by
  rw [indexAfterBlock, if_pos rfl, BitVec.toNat_ofNat]
  omega

/-- Settles O36: the block is a range write of the registers in order. -/
theorem blockStoreCopiesRegistersToMemory : Obligations.BlockStoreCopiesRegistersToMemory := by
  intro x s
  refine ⟨fun h => ⟨_, storeBlockWith_of_exceeds true h, stoppedBy_raiseFatal s _⟩, fun h hm =>
    ⟨_, storeBlockWith_of_fits true h, storeBlockWith_of_fits false h, fun j hj => ?_, fun b hb => ?_,
      toNat_indexAfterBlock h, rfl, unchanged_of_eq_taking rfl⟩⟩
  · have hlt : j.val < (regBlock s x).length := by
      rw [length_regBlock]
      exact Nat.lt_succ_of_le hj
    exact (Memory.read_writeBytes_inside hm hlt).trans (getElem_regBlock s x j.val hlt)
  · rw [← length_regBlock s x] at hb
    exact Memory.read_writeBytes_outside hb

/-- Settles O38: the block store put V0 and V1 in the two bytes at PC, where the fetch reads them. -/
theorem storeIsSeenByTheNextFetch : Obligations.StoreIsSeenByTheNextFetch := by
  intro s hm hi hpc
  have hnext : (s.pc + 2).toNat = s.pc.toNat + 2 := BitVec.toNat_add_of_lt (show s.pc.toNat + 2 < 65536 by omega)
  have hin : s.i.toNat + (1 : RegId).val < 4096 := by
    rw [hi, hnext]
    exact hpc
  obtain ⟨t, ht, _, hread, _, _, htpc, _⟩ := (blockStoreCopiesRegistersToMemory 1 s).2 hin hm
  have hhi : t.mem.read t.pc.toNat = s.getV 0 := by
    rw [htpc, ← hi]
    exact hread 0 (by decide)
  have hlo : t.mem.read (t.pc.toNat + 1) = s.getV 1 := by
    rw [htpc, ← hi]
    exact hread 1 (by decide)
  have hfetch := fetch_inBounds (s := t) (by rw [htpc, ← hi]; exact hin)
  rw [hhi, hlo] at hfetch
  exact ⟨t, _, ht, hfetch, toNat_wordOfBytes _ _⟩

/-! ### Loads -/

theorem loadBlockWith_of_exceeds (incI : Bool) {x : RegId} {s : State} (h : Config.memSize ≤ s.i.toNat + x.val) :
    loadBlockWith incI x s = .next (raiseFatal s (.memOutOfBounds (s.i.toNat + x.val))) := by
  rw [loadBlockWith, memReadRange_of_exceeds (Nat.succ_pos _) (by omega)]
  rfl

/-- The registers after a block load from I. -/
def loadedRegs (s : State) (x : RegId) : Vector Byte 16 :=
  (setRegBlock s 0 (s.mem.readBytes s.i.toNat (x.val + 1))).regs

theorem loadBlockWith_of_fits (incI : Bool) {x : RegId} {s : State} (h : s.i.toNat + x.val < Config.memSize) :
    loadBlockWith incI x s = .next { s with
      regs := loadedRegs s x, i := indexAfterBlock incI s.i x, pc := s.pc + 2 } := by
  rw [loadBlockWith, memReadRange_of_fits (.inr (by omega)), finishChecked_ok, setRegBlock_regs_only]
  rfl

/-- A block load takes register `j` from byte `j` up to Vx and leaves the registers above (R175). -/
theorem getElem_loadedRegs (s : State) (x j : RegId) :
    (loadedRegs s x)[j.val] = if j.val ≤ x.val then s.mem.read (s.i.toNat + j.val) else s.getV j := by
  have hlen : 0 + (s.mem.readBytes s.i.toNat (x.val + 1)).length ≤ 16 := by
    rw [Memory.length_readBytes]
    omega
  refine (getV_setRegBlock s 0 _ hlen j).trans ?_
  by_cases h : j.val ≤ x.val
  · rw [if_pos h, dif_pos (by rw [Memory.length_readBytes]; omega), Memory.getElem_readBytes]
    rfl
  · rw [if_neg h, dif_neg (by rw [Memory.length_readBytes]; omega)]

/-- Settles O37: the block is a range read into the registers in order. -/
theorem blockLoadCopiesMemoryToRegisters : Obligations.BlockLoadCopiesMemoryToRegisters := by
  intro x s
  refine ⟨fun h => ⟨_, loadBlockWith_of_exceeds true h, stoppedBy_raiseFatal s _⟩, fun h =>
    ⟨_, loadBlockWith_of_fits true h, loadBlockWith_of_fits false h, fun j hj => ?_, fun j hj => ?_,
      toNat_indexAfterBlock h, rfl, unchanged_of_eq_taking rfl⟩⟩
  · exact (getElem_loadedRegs s x j).trans (if_pos hj)
  · exact (getElem_loadedRegs s x j).trans (if_neg (Nat.not_le.mpr hj))

/-! ### The canonical form -/

theorem Memory.read_cons_same (k : Nat) (v : Byte) (m : Memory) : Memory.read ((k, v) :: m) k = v := if_pos rfl

theorem Memory.read_cons_other {a k : Nat} (h : a ≠ k) (v : Byte) (m : Memory) :
    Memory.read ((k, v) :: m) a = Memory.read m a := if_neg h

/-- A memory in canonical form reads its first listed byte, which is not the reset contents there; so a memory that
reads alike does not start above it. -/
theorem Memory.not_below_of_read_eq {k : Nat} {v : Byte} {m n : Memory} (hm : Memory.wf ((k, v) :: m) = true)
    (h : ∀ a, Memory.read ((k, v) :: m) a = Memory.read n a) : ¬ n.all (fun c => decide (k < c.1)) = true := by
  obtain ⟨hv, _, _⟩ := Memory.wf_cons.mp hm
  intro hbelow
  exact hv ((Memory.read_cons_same k v m).symm.trans ((h k).trans (Memory.read_of_below hbelow)))

/-- The first listed addresses of two canonical memories that read alike: neither lies above the other. -/
theorem Memory.head_le_of_read_eq {k l : Nat} {v w : Byte} {m n : Memory} (hm : Memory.wf ((k, v) :: m) = true)
    (hn : Memory.wf ((l, w) :: n) = true)
    (h : ∀ a, Memory.read ((k, v) :: m) a = Memory.read ((l, w) :: n) a) : l ≤ k := by
  obtain ⟨_, hall, _⟩ := Memory.wf_cons.mp hn
  by_contra hlt
  have hkl : k < l := Nat.lt_of_not_le hlt
  exact Memory.not_below_of_read_eq hm h (by simp [hkl, Memory.all_below_trans hkl hall])

/-- The rests of two canonical memories with the same first entry read alike when the memories do. -/
theorem Memory.tail_read_eq {k : Nat} {v : Byte} {m n : Memory} (hm : Memory.wf ((k, v) :: m) = true)
    (hn : Memory.wf ((k, v) :: n) = true)
    (h : ∀ a, Memory.read ((k, v) :: m) a = Memory.read ((k, v) :: n) a) (a : Nat) :
    Memory.read m a = Memory.read n a := by
  obtain ⟨_, hmall, _⟩ := Memory.wf_cons.mp hm
  obtain ⟨_, hnall, _⟩ := Memory.wf_cons.mp hn
  by_cases ha : a = k
  · rw [ha, Memory.read_of_below hmall, Memory.read_of_below hnall]
  · rw [← Memory.read_cons_other ha v m, h a, Memory.read_cons_other ha v n]

/-- Settles O39: by induction along both lists, whose first entries agree. -/
theorem canonicalMemoriesThatReadAlikeAreEqual : Obligations.CanonicalMemoriesThatReadAlikeAreEqual := by
  intro m
  induction m with
  | nil =>
    rintro (_ | ⟨⟨l, w⟩, n⟩) _ hn h
    · rfl
    · exact absurd rfl (Memory.not_below_of_read_eq (n := []) hn fun a => (h a).symm)
  | cons c m ih =>
    obtain ⟨k, v⟩ := c
    rintro (_ | ⟨⟨l, w⟩, n⟩) hm hn h
    · exact absurd rfl (Memory.not_below_of_read_eq (n := []) hm h)
    · have hkl : k = l :=
        Nat.le_antisymm (Memory.head_le_of_read_eq hn hm fun a => (h a).symm) (Memory.head_le_of_read_eq hm hn h)
      subst hkl
      have hvw : v = w := by
        rw [← Memory.read_cons_same k v m, h k, Memory.read_cons_same]
      subst hvw
      obtain ⟨_, _, hmwf⟩ := Memory.wf_cons.mp hm
      obtain ⟨_, _, hnwf⟩ := Memory.wf_cons.mp hn
      rw [ih n hmwf hnwf (Memory.tail_read_eq hm hn h)]

end Sys2Proof.Machine
end

section
/-! PROOFS. Which registers an instruction writes (R39), and that none reads ST (R29). -/

namespace Sys2Proof.Machine

/-! ### Registers -/

/-- Settles O17: a Fatal writes no register, nor does an instruction without the registers among its parts; the others
write by one of the register writes. -/
theorem instructionsWriteOnlyTheirOwnRegisters : Obligations.InstructionsWriteOnlyTheirOwnRegisters := by
  intro i s t q h hq
  by_cases hregs : Part.regs ∈ mayChange i
  · cases i with
    | ldByte | addByte | ldReg | ldVxDt | rnd =>
      cases h
      exact getV_setV_other _ _ _ (by simpa [mayWrite] using hq)
    | orReg x y | andReg x y | xorReg x y =>
      cases h
      simp only [mayWrite, Bool.or_eq_false_iff, beq_eq_false_iff_ne, Bool.and_eq_false_iff] at hq
      obtain ⟨hx, hvf⟩ := hq
      refine (getV_writeLogic _ s x q _).trans ((if_neg ?_).trans (if_neg hx))
      rintro ⟨h15, hreset⟩
      simp [h15, hreset] at hvf
    | addReg x y | subReg x y | shrReg x y | subnReg x y | shlReg x y =>
      cases h
      simp only [mayWrite, Bool.or_eq_false_iff, beq_eq_false_iff_ne] at hq
      exact (getV_writeResultFlag s x q _ _).trans ((if_neg hq.2).trans (if_neg hq.1))
    | drw x y n =>
      rcases finishChecked_next h with ⟨f, _, rfl⟩ | ⟨bytes, _, hk⟩
      · rfl
      · cases hk
        exact getV_setV_other _ _ _ (by simpa [mayWrite] using hq)
    | ldVxMem x =>
      have hxq : x.val < q.val := by simpa [mayWrite] using hq
      rcases Nat.lt_or_ge (s.i.toNat + x.val) 4096 with hin | hout
      · cases (loadBlockWith_of_fits true hin).symm.trans h
        exact (getElem_loadedRegs s x q).trans (if_neg (Nat.not_le.mpr hxq))
      · cases (loadBlockWith_of_exceeds true hout).symm.trans h
        rfl
    | _ => simp [mayChange] at hregs
  · rcases instructionsChangeOnlyTheirOwnParts i s t h with ⟨f, _, _, hkept⟩ | hkept
    · exact hkept .regs (by decide) q
    · exact hkept .regs hregs q

/-! ### The sound timer -/

/-- The answer with ST at `v` in the next state. -/
def withST (v : Byte) : Host.Outcome State Fault Refusal → Host.Outcome State Fault Refusal
  | .next t => .next { t with st := v }
  | .fault r => .fault r
  | .refused r => .refused r

theorem finish_st (s : State) (v : Byte) (o : InstrOutcome) :
    finish { s with st := v } o = withST v (finish s o) := by
  cases o <;> rfl

theorem skipIf_st (s : State) (v : Byte) (c : Bool) : skipIf { s with st := v } c = withST v (skipIf s c) :=
  finish_st s v _

/-- A check that does not look at ST, and effects that do not either. -/
theorem finishChecked_st {α : Type} {s : State} {v : Byte} {r : Except Fatal α}
    {k k' : α → Host.Outcome State Fault Refusal} (hk : ∀ a, k' a = withST v (k a)) :
    finishChecked { s with st := v } r k' = withST v (finishChecked s r k) := by
  cases r with
  | error f => rfl
  | ok a => exact hk a

theorem jumpChecked_st {s : State} {v : Byte} {p : Config.OddTargetPolicy} {a : Word}
    {k k' : Host.Outcome State Fault Refusal} (hk : k' = withST v k) :
    jumpChecked p { s with st := v } a k' = withST v (jumpChecked p s a k) := by
  unfold jumpChecked
  cases targetFatal p a with
  | some f => rfl
  | none => exact hk

theorem memWriteRange_st (s : State) (v : Byte) (a : Nat) (vs : List Byte) :
    memWriteRange { s with st := v } a vs = (memWriteRange s a vs).map fun u => { u with st := v } := by
  unfold memWriteRange
  cases rangeFatal a vs.length <;> rfl

theorem push_st (s : State) (v : Byte) (a : Word) :
    push { s with st := v } a = (push s a).map fun u => { u with st := v } := by
  unfold push
  split <;> rfl

theorem pop_st (s : State) (v : Byte) :
    pop { s with st := v } = (pop s).map fun p => (p.1, { p.2 with st := v }) := by
  unfold pop
  cases s.stack.getLast? <;> rfl

theorem setRegBlock_st (s : State) (v : Byte) (k : Nat) (vs : List Byte) :
    setRegBlock { s with st := v } k vs = { setRegBlock s k vs with st := v } := by
  induction vs generalizing s k with
  | nil => rfl
  | cons b vs ih =>
    rw [setRegBlock, setRegBlock, ← ih]
    split <;> rfl

/-- A check whose payload carries ST along. -/
theorem finishChecked_map_st {α : Type} {s : State} {v : Byte} {r : Except Fatal α} {g : α → α}
    {k k' : α → Host.Outcome State Fault Refusal} (hk : ∀ a, k' (g a) = withST v (k a)) :
    finishChecked { s with st := v } (r.map g) k' = withST v (finishChecked s r k) := by
  cases r with
  | error f => rfl
  | ok a => exact hk a

/-- Every instruction but LD ST, Vx answers the same whatever ST is, and leaves ST as it found it. -/
theorem exec_st {i : Instr} (hi : Part.st ∉ mayChange i) (s : State) (v : Byte) :
    exec i { s with st := v } = withST v (exec i s) := by
  cases i with
  | cls | sys | ldI | addI | ldF | ldVxK | ldDtVx => rfl
  | ldByte | addByte | ldReg | ldVxDt | rnd => rfl
  | orReg | andReg | xorReg => rfl
  | addReg | subReg | shrReg | subnReg | shlReg => rfl
  | seByte | sneByte | seReg | sneReg => exact skipIf_st s v _
  | skp | sknp => exact finishChecked_st fun _ => skipIf_st s v _
  | jp | jpV0 => exact jumpChecked_st rfl
  | ret =>
    change finishChecked _ (pop _) _ = _
    rw [pop_st]
    exact finishChecked_map_st fun _ => rfl
  | call =>
    refine jumpChecked_st ?_
    rw [push_st]
    exact finishChecked_map_st fun _ => rfl
  | drw => exact finishChecked_st fun _ => rfl
  | ldStVx => exact absurd (by simp [mayChange]) hi
  | ldB | ldMemVx =>
    change finishChecked _ (memWriteRange _ _ _) _ = _
    rw [memWriteRange_st]
    exact finishChecked_map_st fun _ => rfl
  | ldVxMem =>
    refine finishChecked_st fun bytes => ?_
    rw [setRegBlock_st]
    rfl

/-- Settles O18: LD ST, Vx writes ST in both runs, and every other instruction keeps it in both. -/
theorem noInstructionReadsTheSoundTimer : Obligations.NoInstructionReadsTheSoundTimer := by
  intro i s t v h
  by_cases hst : Part.st ∈ mayChange i
  · cases i with
    | ldStVx x =>
      refine ⟨t.st, ?_, fun hn => absurd hst hn, fun _ => rfl⟩
      rw [exec_ldStVx] at h ⊢
      cases h
      rfl
    | _ => simp [mayChange] at hst
  · refine ⟨v, ?_, fun _ => rfl, fun hn => absurd hn hst⟩
    rw [exec_st hst, h]
    rfl

end Sys2Proof.Machine
end

section
/-! PROOFS. The sprite plot (R186 to R192): the plot as a fold over the distinct cells a sprite lights, what that fold
does to the pixels and the collision flag, and the answers of CLS and DRW. -/

namespace Sys2Proof.Machine

/-! ### Plotting a list of cells -/

/-- A place in the framebuffer: row and column. -/
abbrev PixelCell := Fin 32 × Fin 64

/-- The listed pixels plotted in order. -/
def plotCells (p : Plot) (l : List PixelCell) : Plot := l.foldl (fun p c => plotPixel c.1 c.2 p) p

theorem plotCells_append (p : Plot) (l m : List PixelCell) : plotCells p (l ++ m) = plotCells (plotCells p l) m :=
  List.foldl_append

/-- Plotting distinct cells flips each of them once (R188). -/
theorem pixel_plotCells {l : List PixelCell} (hl : l.Nodup) (p : Plot) (c : PixelCell) :
    pixel (plotCells p l).fb c.1 c.2 = (pixel p.fb c.1 c.2 ^^ decide (c ∈ l)) := by
  induction l generalizing p with
  | nil => simp [plotCells]
  | cons d l ih =>
    obtain ⟨hd, hl⟩ := List.nodup_cons.mp hl
    have hflip : pixel (plotPixel d.1 d.2 p).fb c.1 c.2 = (pixel p.fb c.1 c.2 ^^ decide (c = d)) := by
      simp only [plotPixel, pixel_flipPixel, Prod.ext_iff]
    refine (ih hl (plotPixel d.1 d.2 p)).trans ?_
    rw [hflip]
    by_cases hcd : c = d
    · simp [hcd, hd]
    · simp [hcd]

/-- Plotting distinct cells collides when one of them was lit before (R188). -/
theorem collision_plotCells {l : List PixelCell} (hl : l.Nodup) (p : Plot) :
    (plotCells p l).collision = true ↔ p.collision = true ∨ ∃ c ∈ l, pixel p.fb c.1 c.2 = true := by
  induction l generalizing p with
  | nil => simp [plotCells]
  | cons d l ih =>
    obtain ⟨hd, hl⟩ := List.nodup_cons.mp hl
    have hkept (c : PixelCell) (hc : c ∈ l) :
        pixel (plotPixel d.1 d.2 p).fb c.1 c.2 = pixel p.fb c.1 c.2 := by
      have hne : c ≠ d := fun e => hd (e ▸ hc)
      simp only [plotPixel, pixel_flipPixel, ← Prod.ext_iff, hne, decide_false, Bool.xor_false]
    refine (ih hl (plotPixel d.1 d.2 p)).trans ?_
    have hrest : (∃ c ∈ l, pixel (plotPixel d.1 d.2 p).fb c.1 c.2 = true) ↔ ∃ c ∈ l, pixel p.fb c.1 c.2 = true :=
      exists_congr fun c => and_congr_right fun hc => by rw [hkept c hc]
    rw [hrest]
    simp [plotPixel, or_assoc]

theorem plot_ext {p q : Plot} (hfb : ∀ c : PixelCell, pixel p.fb c.1 c.2 = pixel q.fb c.1 c.2)
    (hcol : p.collision = true ↔ q.collision = true) : p = q := by
  obtain ⟨fb, col⟩ := p
  obtain ⟨fb', col'⟩ := q
  rw [Plot.mk.injEq]
  exact ⟨framebuffer_ext fun r c => hfb (r, c), Bool.eq_iff_iff.mpr hcol⟩

/-- The order in which distinct cells are plotted does not matter. -/
theorem plotCells_congr {l m : List PixelCell} (hl : l.Nodup) (hm : m.Nodup) (h : ∀ c, c ∈ l ↔ c ∈ m) (p : Plot) :
    plotCells p l = plotCells p m := by
  refine plot_ext (fun c => ?_) ?_
  · rw [pixel_plotCells hl, pixel_plotCells hm, decide_eq_decide.mpr (h c)]
  · rw [collision_plotCells hl, collision_plotCells hm]
    simp only [h]

/-! ### The cells of a sprite -/

/-- The cell of sprite pixel `j` of a row, if it is lit and not clipped (R186, R192). -/
def bitCell (clip : Bool) (r : Fin 32) (x0 : Fin 64) (b : Byte) (j : Nat) : Option PixelCell :=
  if b.getLsbD (7 - j) then (spriteColumn clip x0 j).map (r, ·) else none

def rowCells (clip : Bool) (r : Fin 32) (x0 : Fin 64) (b : Byte) : List PixelCell :=
  [0, 1, 2, 3, 4, 5, 6, 7].filterMap (bitCell clip r x0 b)

def spriteCells (clip : Bool) (x0 : Fin 64) (y0 : Fin 32) (i : Nat) : List Byte → List PixelCell
  | [] => []
  | b :: bs => rowCells clip (spriteRow y0 i) x0 b ++ spriteCells clip x0 y0 (i + 1) bs

theorem plotBit_eq (clip : Bool) (r : Fin 32) (x0 : Fin 64) (b : Byte) (p : Plot) (j : Nat) :
    plotBit clip r x0 b p j = plotCells p (bitCell clip r x0 b j).toList := by
  unfold plotBit bitCell
  split
  · cases spriteColumn clip x0 j <;> rfl
  · rfl

theorem plotRow_eq_plotCells (clip : Bool) (r : Fin 32) (x0 : Fin 64) (b : Byte) (p : Plot) :
    plotRow clip r x0 b p = plotCells p (rowCells clip r x0 b) := by
  have hfold (l : List Nat) (p : Plot) :
      l.foldl (plotBit clip r x0 b) p = plotCells p (l.filterMap (bitCell clip r x0 b)) := by
    induction l generalizing p with
    | nil => rfl
    | cons j l ih =>
      rw [List.foldl_cons, ih, plotBit_eq, ← plotCells_append]
      cases h : bitCell clip r x0 b j <;> simp [h]
  exact hfold _ p

theorem plotRows_eq_plotCells (clip : Bool) (x0 : Fin 64) (y0 : Fin 32) (i : Nat) (p : Plot) (bytes : List Byte) :
    plotRows clip x0 y0 i p bytes = plotCells p (spriteCells clip x0 y0 i bytes) := by
  induction bytes generalizing i p with
  | nil => rfl
  | cons b bs ih => rw [plotRows, spriteCells, plotCells_append, ih, plotRow_eq_plotCells]

/-- The column a sprite pixel falls on, as a number: past the right edge it wraps, or is dropped (R186, R192). -/
theorem spriteColumn_eq_some {clip : Bool} {x0 c : Fin 64} {j : Nat} (hj : j < 8) :
    spriteColumn clip x0 j = some c ↔ x0.val + j = c.val ∨ (clip = false ∧ x0.val + j = c.val + 64) := by
  have hx := x0.isLt
  have hc := c.isLt
  unfold spriteColumn
  split
  · next h =>
    simp only [Option.some.injEq, Fin.ext_iff, Fin.val_ofNat, Nat.mod_eq_of_lt h]
    omega
  · next h =>
    cases clip with
    | true => simp; omega
    | false =>
      simp only [Bool.false_eq_true, if_false, Option.some.injEq, Fin.ext_iff, Fin.val_ofNat,
        Nat.mod_eq_of_lt (show x0.val + j - 64 < 64 by omega), true_and]
      omega

theorem bitCell_eq_some {clip : Bool} {r : Fin 32} {x0 : Fin 64} {b : Byte} {j : Nat} (hj : j < 8) {c : PixelCell} :
    bitCell clip r x0 b j = some c ↔ c.1 = r ∧ b.getLsbD (7 - j) = true ∧
      (x0.val + j = c.2.val ∨ (clip = false ∧ x0.val + j = c.2.val + 64)) := by
  obtain ⟨q, d⟩ := c
  rw [← spriteColumn_eq_some hj]
  unfold bitCell
  by_cases hb : b.getLsbD (7 - j) = true
  · simp [hb, eq_comm, and_comm]
  · simp [hb]

theorem mem_bits {j : Nat} : j ∈ [0, 1, 2, 3, 4, 5, 6, 7] ↔ j < 8 :=
  List.mem_range (n := 8)

theorem mem_rowCells {clip : Bool} {r : Fin 32} {x0 : Fin 64} {b : Byte} {c : PixelCell} :
    c ∈ rowCells clip r x0 b ↔ c.1 = r ∧ ∃ j < 8, b.getLsbD (7 - j) = true ∧
      (x0.val + j = c.2.val ∨ (clip = false ∧ x0.val + j = c.2.val + 64)) := by
  rw [rowCells, List.mem_filterMap]
  constructor
  · rintro ⟨j, hj, hc⟩
    obtain ⟨hr, hcell⟩ := (bitCell_eq_some (mem_bits.mp hj)).mp hc
    exact ⟨hr, j, mem_bits.mp hj, hcell⟩
  · rintro ⟨hr, j, hj, hcell⟩
    exact ⟨j, mem_bits.mpr hj, (bitCell_eq_some hj).mpr ⟨hr, hcell⟩⟩

/-- Bits that fall on different cells give a list without duplicates. -/
theorem nodup_filterMap_bits {f : Nat → Option PixelCell}
    (hf : ∀ j < 8, ∀ k < 8, ∀ c, f j = some c → f k = some c → j = k) :
    ([0, 1, 2, 3, 4, 5, 6, 7].filterMap f).Nodup := by
  have hbits : [0, 1, 2, 3, 4, 5, 6, 7].Nodup := by decide
  rw [List.Nodup, List.pairwise_filterMap]
  refine hbits.imp_of_mem fun {j k} hj hk hjk c hc d hd hcd => ?_
  exact hjk (hf j (mem_bits.mp hj) k (mem_bits.mp hk) c hc (hcd ▸ hd))

/-- Two pixels of one sprite row fall on different columns. -/
theorem nodup_rowCells (clip : Bool) (r : Fin 32) (x0 : Fin 64) (b : Byte) : (rowCells clip r x0 b).Nodup :=
  nodup_filterMap_bits fun j hj k hk c hc hd => by
    obtain ⟨_, _, hjc⟩ := (bitCell_eq_some hj).mp hc
    obtain ⟨_, _, hkc⟩ := (bitCell_eq_some hk).mp hd
    omega

theorem mem_spriteCells {clip : Bool} {x0 : Fin 64} {y0 : Fin 32} {i : Nat} {bytes : List Byte} {c : PixelCell} :
    c ∈ spriteCells clip x0 y0 i bytes ↔
      ∃ k, ∃ hk : k < bytes.length, c ∈ rowCells clip (spriteRow y0 (i + k)) x0 bytes[k] := by
  induction bytes generalizing i with
  | nil => simp [spriteCells]
  | cons b bs ih =>
    rw [spriteCells, List.mem_append, ih]
    constructor
    · rintro (h | ⟨k, hk, h⟩)
      · exact ⟨0, by simp, h⟩
      · exact ⟨k + 1, by simpa using hk, by simpa [Nat.add_assoc, Nat.add_comm 1] using h⟩
    · rintro ⟨k, hk, h⟩
      cases k with
      | zero => exact .inl h
      | succ k => exact .inr ⟨k, by simpa using hk, by simpa [Nat.add_assoc, Nat.add_comm 1] using h⟩

/-- The rows of a sprite of at most 32 rows fall on different framebuffer rows. -/
theorem nodup_spriteCells (clip : Bool) (x0 : Fin 64) (y0 : Fin 32) (i : Nat) (bytes : List Byte)
    (h : i + bytes.length ≤ 32) : (spriteCells clip x0 y0 i bytes).Nodup := by
  induction bytes generalizing i with
  | nil => exact List.nodup_nil
  | cons b bs ih =>
    rw [List.length_cons] at h
    refine List.nodup_append'.mpr ⟨nodup_rowCells clip _ x0 b, ih (i + 1) (by omega), fun c hc hc' => ?_⟩
    obtain ⟨k, hk, hrow⟩ := mem_spriteCells.mp hc'
    have hrows : spriteRow y0 i = spriteRow y0 (i + 1 + k) := (mem_rowCells.mp hc).1.symm.trans (mem_rowCells.mp hrow).1
    simp only [spriteRow, Fin.ext_iff, Fin.val_ofNat] at hrows
    omega

end Sys2Proof.Machine
end

section
/-! PROOFS. CLS and DRW (R187 to R192): the cells of a sprite in memory, the answer of a draw under either value of
Q_CLIP_RIGHT, and the double draw. -/

namespace Sys2Proof.Machine

/-! ### CLS -/

/-- The packed view of a clear framebuffer: 256 zero bytes. -/
theorem packed_clear : packed (Vector.replicate Config.fbHeight 0#64) = List.replicate 256 0 := by
  have hrow : packedRow 0#64 = List.replicate 8 0 := by decide
  have hlen : Config.fbHeight * 8 = 256 := rfl
  rw [packed, Vector.toList_replicate, List.flatMap_replicate, hrow, List.flatten_replicate_replicate, hlen]

/-- Settles O40: CLS writes a clear framebuffer and requests its redraw. -/
theorem clsClearsTheDisplay : Obligations.ClsClearsTheDisplay := fun _ =>
  ⟨_, rfl, pixel_clear, congrArg (fun l => some (Output.redraw l)) packed_clear, rfl, unchanged_of_eq_taking rfl⟩

/-! ### DRW -/

/-- The cells DRW Vx, Vy, n plots from state `s`. -/
def drawCells (clip : Bool) (s : State) (x y : RegId) (n : Nibble) : List PixelCell :=
  spriteCells clip (startColumn (s.getV x)) (startRow (s.getV y)) 0 (s.mem.readBytes s.i.toNat n.toNat)

theorem nodup_drawCells (clip : Bool) (s : State) (x y : RegId) (n : Nibble) : (drawCells clip s x y n).Nodup := by
  refine nodup_spriteCells clip _ _ 0 _ ?_
  rw [Memory.length_readBytes]
  omega

/-- The cells plotted are those the sprite covers. -/
theorem mem_drawCells {clip : Bool} {s : State} {x y : RegId} {n : Nibble} {r : Fin 32} {c : Fin 64} :
    (r, c) ∈ drawCells clip s x y n ↔ SpriteCovers clip s x y n r c := by
  have hrow (k : Nat) :
      r = spriteRow (startRow (s.getV y)) (0 + k) ↔ r.val = ((s.getV y).toNat % 32 + k) % 32 := by
    simp [spriteRow, startRow, Fin.ext_iff]
  have hcol : (startColumn (s.getV x)).val = (s.getV x).toNat % 64 := rfl
  simp only [drawCells, mem_spriteCells, mem_rowCells, Memory.length_readBytes, Memory.getElem_readBytes, hrow, hcol]
  constructor
  · rintro ⟨k, hk, hr, j, hj, hb, hc⟩
    exact ⟨k, j, hk, hj, hb, hr, hc⟩
  · rintro ⟨k, j, hk, hj, hb, hr, hc⟩
    exact ⟨k, hk, hr, j, hj, hb, hc⟩

/-- The plot of a draw: its framebuffer and collision flag. -/
def drawPlot (clip : Bool) (s : State) (x y : RegId) (n : Nibble) : Plot :=
  plotCells ⟨s.fb, false⟩ (drawCells clip s x y n)

theorem pixel_drawPlot {clip : Bool} {s : State} {x y : RegId} {n : Nibble} (r : Fin 32) (c : Fin 64) :
    pixel (drawPlot clip s x y n).fb r c = true ↔ Xor (pixel s.fb r c = true) (SpriteCovers clip s x y n r c) := by
  have h := pixel_plotCells (nodup_drawCells clip s x y n) ⟨s.fb, false⟩ (r, c)
  rw [← mem_drawCells, drawPlot, h]
  by_cases hc : (r, c) ∈ drawCells clip s x y n <;> simp [hc, Xor]

theorem collision_drawPlot {clip : Bool} {s : State} {x y : RegId} {n : Nibble} :
    (drawPlot clip s x y n).collision = true ↔ ∃ r c, pixel s.fb r c = true ∧ SpriteCovers clip s x y n r c := by
  have h := collision_plotCells (nodup_drawCells clip s x y n) ⟨s.fb, false⟩
  simp only [Bool.false_eq_true, false_or, Prod.exists, mem_drawCells] at h
  rw [drawPlot, h]
  simp only [and_comm]

theorem drawWith_of_exceeds (clip : Bool) {s : State} {x y : RegId} {n : Nibble} (h0 : 0 < n.toNat)
    (h : Config.memSize < s.i.toNat + n.toNat) :
    drawWith clip x y n s = .next (raiseFatal s (.memOutOfBounds (s.i.toNat + n.toNat - 1))) := by
  rw [drawWith, memReadRange_of_exceeds h0 h]
  rfl

theorem drawWith_of_fits (clip : Bool) {s : State} {x y : RegId} {n : Nibble}
    (h : n.toNat = 0 ∨ s.i.toNat + n.toNat ≤ Config.memSize) :
    drawWith clip x y n s = finish (State.setV { s with fb := (drawPlot clip s x y n).fb } vf
      (collisionFlag (drawPlot clip s x y n).collision)) .requestRedraw := by
  have hplot : plotSprite clip s.fb (s.getV x) (s.getV y) (s.mem.readBytes s.i.toNat n.toNat) = drawPlot clip s x y n :=
    plotRows_eq_plotCells clip _ _ 0 _ _
  rw [drawWith, memReadRange_of_fits h, finishChecked_ok, hplot]

/-- The answer of a draw inside memory, under either value of Q_CLIP_RIGHT (R188, R192). -/
theorem drawWith_next (clip : Bool) {s : State} {x y : RegId} {n : Nibble}
    (h : n.toNat = 0 ∨ s.i.toNat + n.toNat ≤ 4096) :
    ∃ t, drawWith clip x y n s = .next t ∧
      (∀ r c, pixel t.fb r c = true ↔ Xor (pixel s.fb r c = true) (SpriteCovers clip s x y n r c)) ∧
      ((∃ r c, pixel s.fb r c = true ∧ SpriteCovers clip s x y n r c) → t.getV 15 = 1) ∧
      ((¬ ∃ r c, pixel s.fb r c = true ∧ SpriteCovers clip s x y n r c) → t.getV 15 = 0) ∧
      t.emitted = some (.redraw (packed t.fb)) ∧ RegsKept [15] s t ∧ t.pc = s.pc + 2 ∧
      Unchanged [.regs, .fb, .emitted, .pc] s t := by
  have hvf := getV_setV_same { s with fb := (drawPlot clip s x y n).fb } vf
    (collisionFlag (drawPlot clip s x y n).collision)
  refine ⟨_, (drawWith_of_fits clip h).trans (finish_eq_next _ _), pixel_drawPlot, fun hc => hvf.trans ?_,
    fun hc => hvf.trans ?_, rfl, regsKept_setV { s with fb := (drawPlot clip s x y n).fb } vf _, rfl,
    unchanged_of_eq_taking rfl⟩
  · rw [collision_drawPlot.mpr hc]
    rfl
  · rw [Bool.eq_false_iff.mpr fun e => hc (collision_drawPlot.mp e)]
    rfl

theorem exec_drw (x y : RegId) (n : Nibble) (s : State) : exec (.drw x y n) s = drawWith false x y n s := rfl

/-- Settles O41: DRW is the draw without clipping. -/
theorem drawXorsTheSprite : Obligations.DrawXorsTheSprite := by
  intro x y n s h
  rw [exec_drw]
  exact drawWith_next false h

/-- Settles O42: the draw with clipping, inside memory and past its end. -/
theorem clippedDrawDropsColumnsPast63 : Obligations.ClippedDrawDropsColumnsPast63 := fun _ _ _ s =>
  ⟨drawWith_next true, fun h0 h => ⟨_, drawWith_of_exceeds true h0 h, stoppedBy_raiseFatal s _⟩⟩

/-- Settles O43: the range is validated before anything is plotted. -/
theorem drawOutsideMemoryStops : Obligations.DrawOutsideMemoryStops := fun _ _ _ s h0 h =>
  ⟨_, drawWith_of_exceeds false h0 h, stoppedBy_raiseFatal s _⟩

/-! ### The double draw -/

theorem xor_and_self (p q : Prop) : Xor p q ∧ q ↔ ¬p ∧ q := by
  by_cases hq : q <;> simp [Xor, hq]

theorem xor_xor_self (p q : Prop) : Xor (Xor p q) q ↔ p := by
  by_cases hq : q <;> simp [Xor, hq]

/-- What a sprite covers depends on memory, I and the start place only. -/
theorem spriteCovers_congr {clip : Bool} {s t : State} {x y : RegId} {n : Nibble} {r : Fin 32} {c : Fin 64}
    (hmem : ∀ a, t.mem.read a = s.mem.read a) (hi : t.i = s.i)
    (hx : (t.getV x).toNat % 64 = (s.getV x).toNat % 64) (hy : (t.getV y).toNat % 32 = (s.getV y).toNat % 32) :
    SpriteCovers clip t x y n r c ↔ SpriteCovers clip s x y n r c := by
  simp only [SpriteCovers, hmem, hi, hx, hy]

/-- Settles O44: the second draw covers the same cells, so it flips each of them back, and it collides on the cells the
first draw lit. -/
theorem drawingTwiceRestoresTheFramebuffer : Obligations.DrawingTwiceRestoresTheFramebuffer := by
  intro x y n s h
  obtain ⟨t, ht, hpix, _, hclear, _, hregs, _, hframe⟩ := drawXorsTheSprite x y n s h
  refine ⟨t, ht, hclear, fun hx hy => ⟨hregs x (by simpa using hx), hregs y (by simpa using hy)⟩, fun hx hy => ?_⟩
  have hi : t.i = s.i := hframe .i (by decide)
  have hcovers (r c) : SpriteCovers false t x y n r c ↔ SpriteCovers false s x y n r c :=
    spriteCovers_congr (hframe .mem (by decide)) hi hx hy
  obtain ⟨u, hu, hpix', hset', hclear', _⟩ := drawXorsTheSprite x y n t (hi.symm ▸ h)
  have hlit (r c) : pixel t.fb r c = true ∧ SpriteCovers false t x y n r c ↔
      pixel s.fb r c = false ∧ SpriteCovers false s x y n r c := by
    rw [hpix, hcovers, xor_and_self, Bool.not_eq_true]
  simp only [hlit] at hset' hclear'
  refine ⟨u, hu, framebuffer_ext fun r c => Bool.eq_iff_iff.mpr ?_, hset', hclear'⟩
  rw [hpix', hpix, hcovers, xor_xor_self]

end Sys2Proof.Machine
end

section
/-! PROOFS. The packed framebuffer (R36, R189): its bytes, and the byte-level plot as a plot of cells. -/

namespace Sys2Proof.Machine

/-! ### The packed view -/

theorem getD_packedRow (row : BitVec 64) {k : Nat} (hk : k < 8) :
    (packedRow row).getD k 0 = row.extractLsb' (56 - 8 * k) 8 := by
  interval_cases k <;> rfl

/-- Byte `8 r + k` of the packed rows is byte `k` of row `r`. -/
theorem getD_flatMap_packedRow (rows : List (BitVec 64)) (r : Nat) {k : Nat} (hk : k < 8) :
    (rows.flatMap packedRow).getD (8 * r + k) 0 = (packedRow (rows.getD r 0)).getD k 0 := by
  have hlen (row : BitVec 64) : (packedRow row).length = 8 := rfl
  induction rows generalizing r with
  | nil => rw [getD_packedRow _ hk]; simp
  | cons row rows ih =>
    rw [List.flatMap_cons]
    cases r with
    | zero => rw [List.getD_append _ _ _ _ (by rw [hlen]; omega)]; simp
    | succ r =>
      rw [List.getD_append_right _ _ _ _ (by rw [hlen]; omega), hlen,
        show 8 * (r + 1) + k - 8 = 8 * r + k by omega, ih, List.getD_cons_succ]

theorem length_packed (fb : Framebuffer) : (packed fb).length = 256 := by
  have hlen (row : BitVec 64) : (packedRow row).length = 8 := rfl
  simp [packed, List.length_flatMap, hlen, Config.fbHeight]

theorem getLsbD_packedByte (fb : Framebuffer) (r : Fin 32) (k : Fin 8) {j : Nat} (hj : j < 8) {c : Fin 64}
    (hc : c.val = 8 * k.val + (7 - j)) : (packedByte fb r k).getLsbD j = pixel fb r c := by
  have hk := k.isLt
  rw [packedByte, BitVec.getLsbD_extractLsb', pixel, BitVec.getMsbD_eq_getLsbD]
  have h1 : c.val < 64 := c.isLt
  simp only [hj, h1, decide_true, Bool.true_and]
  congr 1
  omega

/-- Settles O46: byte 8 r + k of the packed view is byte k of row r, whose bits are eight pixels of the row. -/
theorem packedViewHoldsThePixels : Obligations.PackedViewHoldsThePixels := by
  intro fb
  refine ⟨length_packed fb, fun r c => ?_⟩
  have hk : c.val / 8 < 8 := by omega
  have hbyte : (packed fb).getD (8 * r.val + c.val / 8) 0 = packedByte fb r ⟨c.val / 8, hk⟩ := by
    rw [packed, getD_flatMap_packedRow _ _ hk, getD_packedRow _ hk]
    simp [packedByte]
  rw [hbyte]
  exact getLsbD_packedByte fb r _ (by omega) (by simp only; omega)

/-! ### The byte-level plot -/

/-- Column `8 k + j`: that of bit `7 - j` of packed byte `k` (R36). -/
def byteColumn (k : Fin 8) (j : Nat) : Fin 64 := Fin.ofNat 64 (8 * k.val + j)

theorem val_byteColumn (k : Fin 8) {j : Nat} (hj : j < 8) : (byteColumn k j).val = 8 * k.val + j := by
  rw [byteColumn, Fin.val_ofNat, Nat.mod_eq_of_lt (by omega)]

/-- The cell of a bit of a part XORed into byte `k` of row `r`, if it is set (R189). -/
def partCell (r : Fin 32) (k : Fin 8) (part : Byte) (j : Nat) : Option PixelCell :=
  if part.getLsbD (7 - j) then some (r, byteColumn k j) else none

def partCells (r : Fin 32) (k : Fin 8) (part : Byte) : List PixelCell :=
  [0, 1, 2, 3, 4, 5, 6, 7].filterMap (partCell r k part)

theorem partCell_eq_some {r : Fin 32} {k : Fin 8} {part : Byte} {j : Nat} (hj : j < 8) {c : PixelCell} :
    partCell r k part j = some c ↔ c.1 = r ∧ part.getLsbD (7 - j) = true ∧ c.2.val = 8 * k.val + j := by
  obtain ⟨q, d⟩ := c
  rw [← val_byteColumn k hj, ← Fin.ext_iff]
  unfold partCell
  by_cases hb : part.getLsbD (7 - j) = true
  · simp [hb, eq_comm]
  · simp [hb]

theorem mem_partCells {r : Fin 32} {k : Fin 8} {part : Byte} {c : PixelCell} :
    c ∈ partCells r k part ↔ c.1 = r ∧ ∃ j < 8, part.getLsbD (7 - j) = true ∧ c.2.val = 8 * k.val + j := by
  rw [partCells, List.mem_filterMap]
  constructor
  · rintro ⟨j, hj, hc⟩
    obtain ⟨hr, hcell⟩ := (partCell_eq_some (mem_bits.mp hj)).mp hc
    exact ⟨hr, j, mem_bits.mp hj, hcell⟩
  · rintro ⟨hr, j, hj, hcell⟩
    exact ⟨j, mem_bits.mpr hj, (partCell_eq_some hj).mpr ⟨hr, hcell⟩⟩

theorem nodup_partCells (r : Fin 32) (k : Fin 8) (part : Byte) : (partCells r k part).Nodup :=
  nodup_filterMap_bits fun j hj i hi c hc hd => by
    obtain ⟨_, _, hjc⟩ := (partCell_eq_some hj).mp hc
    obtain ⟨_, _, hic⟩ := (partCell_eq_some hi).mp hd
    omega

/-- The part shifted into its place in the row is lit on its own cells. -/
theorem getMsbD_part (k : Fin 8) (part : Byte) (d : Fin 64) :
    ((part.setWidth 64) <<< (56 - 8 * k.val)).getMsbD d.val = true ↔
      ∃ j < 8, part.getLsbD (7 - j) = true ∧ d.val = 8 * k.val + j := by
  have hk := k.isLt
  have hd := d.isLt
  rw [BitVec.getMsbD_eq_getLsbD, BitVec.getLsbD_shiftLeft, BitVec.getLsbD_setWidth]
  simp only [Bool.and_eq_true, decide_eq_true_eq, Bool.not_eq_true', decide_eq_false_iff_not]
  constructor
  · rintro ⟨_, ⟨_, hlow⟩, _, hbit⟩
    have hlt := BitVec.lt_of_getLsbD hbit
    refine ⟨d.val - 8 * k.val, by omega, ?_, by omega⟩
    rwa [show 7 - (d.val - 8 * k.val) = 64 - 1 - d.val - (56 - 8 * k.val) by omega]
  · rintro ⟨j, hj, hbit, hdj⟩
    refine ⟨hd, ⟨by omega, by omega⟩, by omega, ?_⟩
    rwa [show 64 - 1 - d.val - (56 - 8 * k.val) = 7 - j by omega]

theorem pixel_xorPackedByte (fb : Framebuffer) (r : Fin 32) (k : Fin 8) (part : Byte) (c : PixelCell) :
    pixel (xorPackedByte fb r k part) c.1 c.2 = (pixel fb c.1 c.2 ^^ decide (c ∈ partCells r k part)) := by
  obtain ⟨q, d⟩ := c
  unfold pixel xorPackedByte
  rw [Vector.getElem_set]
  by_cases hr : q = r
  · subst hr
    have hpart : ((part.setWidth 64) <<< (56 - 8 * k.val)).getMsbD d.val = decide ((q, d) ∈ partCells q k part) := by
      rw [Bool.eq_iff_iff, getMsbD_part, decide_eq_true_eq, mem_partCells]
      simp
    simp only [↓reduceIte, BitVec.getMsbD_xor, hpart]
  · rw [if_neg (fun e => hr (Fin.ext e.symm)), decide_eq_false (fun h => hr (mem_partCells.mp h).1), Bool.xor_false]

theorem getLsbD_packedByte_column (fb : Framebuffer) (r : Fin 32) (k : Fin 8) {j : Nat} (hj : j < 8) :
    (packedByte fb r k).getLsbD (7 - j) = pixel fb r (byteColumn k j) :=
  getLsbD_packedByte fb r k (by omega) (by rw [val_byteColumn k hj]; omega)

/-- `(old | new) != new` says that some bit was 1 and became 0 (R189). -/
theorem or_bne_iff (a b : Byte) :
    (a ||| b != b) = true ↔ ∃ j < 8, a.getLsbD (7 - j) = true ∧ b.getLsbD (7 - j) = false := by
  rw [bne_iff_ne]
  constructor
  · intro h
    by_contra! hno
    refine h (BitVec.eq_of_getLsbD_eq fun i hi => ?_)
    have hi' := hno (7 - i) (by omega)
    rw [show 7 - (7 - i) = i by omega] at hi'
    cases ha : a.getLsbD i <;> simp_all
  · rintro ⟨j, _, ha, hb⟩ h
    have hbit := congrArg (BitVec.getLsbD · (7 - j)) h
    simp [ha, hb] at hbit

/-- XORing a part into a byte is plotting its cells, the collision test among it (R189). -/
theorem plotPart_eq_plotCells (r : Fin 32) (k : Fin 8) (part : Byte) (p : Plot) :
    plotPart r k part p = plotCells p (partCells r k part) := by
  have hnodup := nodup_partCells r k part
  refine plot_ext (fun c => ?_) ?_
  · rw [pixel_plotCells hnodup]
    exact pixel_xorPackedByte p.fb r k part c
  · rw [collision_plotCells hnodup, plotPart, Bool.or_eq_true, or_bne_iff]
    refine or_congr_right ⟨?_, ?_⟩
    · rintro ⟨j, hj, hold, hnew⟩
      rw [getLsbD_packedByte_column _ _ _ hj] at hold hnew
      rw [pixel_xorPackedByte p.fb r k part (r, byteColumn k j), hold] at hnew
      exact ⟨(r, byteColumn k j), by simpa using hnew, hold⟩
    · rintro ⟨⟨q, d⟩, hc, hold⟩
      obtain ⟨hq, j, hj, _, hd⟩ := mem_partCells.mp hc
      obtain rfl : q = r := hq
      obtain rfl : d = byteColumn k j := Fin.ext (hd.trans (val_byteColumn k hj).symm)
      refine ⟨j, hj, (getLsbD_packedByte_column _ _ _ hj).trans hold, ?_⟩
      rw [getLsbD_packedByte_column _ _ _ hj, pixel_xorPackedByte p.fb q k part (q, byteColumn k j), hold]
      simp [hc]

/-- The left part of a row byte: its pixels that stay within byte `k` (R189). -/
theorem mem_partCells_left {r : Fin 32} {k : Fin 8} {b : Byte} {m : Nat} {c : PixelCell} :
    c ∈ partCells r k (b >>> m) ↔ c.1 = r ∧ ∃ j < 8, b.getLsbD (7 - j) = true ∧
      8 * k.val + m + j = c.2.val ∧ m + j < 8 := by
  rw [mem_partCells]
  refine and_congr_right fun _ => ⟨?_, ?_⟩
  · rintro ⟨j, hj, hb, hc⟩
    rw [BitVec.getLsbD_ushiftRight] at hb
    have hlt := BitVec.lt_of_getLsbD hb
    refine ⟨j - m, by omega, ?_, by omega, by omega⟩
    rwa [show 7 - (j - m) = m + (7 - j) by omega]
  · rintro ⟨j, hj, hb, hc, hlt⟩
    refine ⟨m + j, hlt, ?_, by omega⟩
    rwa [BitVec.getLsbD_ushiftRight, show m + (7 - (m + j)) = 7 - j by omega]

/-- The right part of a row byte: its pixels past byte `k - 1`, at the start of byte `k` (R189). -/
theorem mem_partCells_right {r : Fin 32} {k : Fin 8} {b : Byte} {m : Nat} (hm : m < 8) {c : PixelCell} :
    c ∈ partCells r k (b <<< (8 - m)) ↔ c.1 = r ∧ ∃ j < 8, b.getLsbD (7 - j) = true ∧
      8 * k.val + m + j = c.2.val + 8 ∧ 8 ≤ m + j := by
  rw [mem_partCells]
  refine and_congr_right fun _ => ⟨?_, ?_⟩
  · rintro ⟨j, hj, hb, hc⟩
    simp only [BitVec.getLsbD_shiftLeft, Bool.and_eq_true, decide_eq_true_eq, Bool.not_eq_true',
      decide_eq_false_iff_not] at hb
    obtain ⟨⟨_, hlow⟩, hb⟩ := hb
    refine ⟨8 - m + j, by omega, ?_, by omega, by omega⟩
    rwa [show 7 - (8 - m + j) = 7 - j - (8 - m) by omega]
  · rintro ⟨j, hj, hb, hc, hge⟩
    refine ⟨m + j - 8, by omega, ?_, by omega⟩
    simp only [BitVec.getLsbD_shiftLeft, Bool.and_eq_true, decide_eq_true_eq, Bool.not_eq_true',
      decide_eq_false_iff_not]
    refine ⟨⟨by omega, by omega⟩, ?_⟩
    rwa [show 7 - (m + j - 8) - (8 - m) = 7 - j by omega]

/-- The columns of a row that is byte-aligned, or clipped at the right edge: those within its first byte. -/
theorem columns_of_one_part {clip : Bool} {a j c : Nat} (ha : a < 64) (hj : j < 8) (hc : c < 64)
    (h : a % 8 = 0 ∨ (a / 8 = 7 ∧ clip = true)) :
    (8 * (a / 8) + a % 8 + j = c ∧ a % 8 + j < 8) ↔ (a + j = c ∨ (clip = false ∧ a + j = c + 64)) := by
  cases clip with
  | true => simp only [and_true, Bool.true_eq_false, false_and, or_false] at h ⊢; omega
  | false => simp only [Bool.false_eq_true, and_false, or_false, true_and] at h ⊢; omega

/-- The columns of any other row: those within its first byte, and those in the next one, round the edge. -/
theorem columns_of_two_parts {clip : Bool} {a j c : Nat} (ha : a < 64) (hj : j < 8) (hc : c < 64)
    (h : ¬ (a % 8 = 0 ∨ (a / 8 = 7 ∧ clip = true))) :
    ((8 * (a / 8) + a % 8 + j = c ∧ a % 8 + j < 8) ∨
      (8 * ((a / 8 + 1) % 8) + a % 8 + j = c + 8 ∧ 8 ≤ a % 8 + j)) ↔
      (a + j = c ∨ (clip = false ∧ a + j = c + 64)) := by
  cases clip with
  | true => simp only [and_true, Bool.true_eq_false, false_and, or_false] at h ⊢; omega
  | false => simp only [Bool.false_eq_true, and_false, or_false, true_and] at h ⊢; omega

section
variable {clip : Bool} {r : Fin 32} {x0 : Fin 64} {b : Byte}

theorem val_startByte : (Fin.ofNat 8 (x0.val / 8)).val = x0.val / 8 := Nat.mod_eq_of_lt (by omega)

theorem mem_rowCells_of_one_part (h : x0.val % 8 = 0 ∨ (x0.val / 8 = 7 ∧ clip = true)) (c : PixelCell) :
    c ∈ partCells r (Fin.ofNat 8 (x0.val / 8)) (b >>> (x0.val % 8)) ↔ c ∈ rowCells clip r x0 b := by
  rw [mem_partCells_left, mem_rowCells, val_startByte]
  exact and_congr_right fun _ => exists_congr fun j => and_congr_right fun hj => and_congr_right fun _ =>
    columns_of_one_part x0.isLt hj c.2.isLt h

theorem mem_rowCells_of_two_parts (h : ¬ (x0.val % 8 = 0 ∨ (x0.val / 8 = 7 ∧ clip = true))) (c : PixelCell) :
    c ∈ partCells r (Fin.ofNat 8 (x0.val / 8)) (b >>> (x0.val % 8)) ++
      partCells r (Fin.ofNat 8 (x0.val / 8 + 1)) (b <<< (8 - x0.val % 8)) ↔ c ∈ rowCells clip r x0 b := by
  rw [List.mem_append, mem_partCells_left, mem_partCells_right (by omega), mem_rowCells, val_startByte,
    Fin.val_ofNat, ← and_or_left, ← exists_or]
  refine and_congr_right fun _ => exists_congr fun j => ?_
  rw [← and_or_left, ← and_or_left]
  exact and_congr_right fun hj => and_congr_right fun _ => columns_of_two_parts x0.isLt hj c.2.isLt h

/-- Two packed bytes of a row have no cell in common. -/
theorem not_mem_partCells_of_ne {k l : Fin 8} (hkl : k ≠ l) {p q : Byte} {c : PixelCell} (hc : c ∈ partCells r k p) :
    c ∉ partCells r l q := by
  intro hc'
  obtain ⟨_, j, hj, _, hcj⟩ := mem_partCells.mp hc
  obtain ⟨_, i, hi, _, hci⟩ := mem_partCells.mp hc'
  exact hkl (Fin.ext (by omega))

theorem startByte_ne_next : Fin.ofNat 8 (x0.val / 8) ≠ Fin.ofNat 8 (x0.val / 8 + 1) := by
  rw [ne_eq, Fin.ext_iff, Fin.val_ofNat, Fin.val_ofNat]
  omega

/-- A sprite row on the packed bytes plots the same cells as on the pixels (R189). -/
theorem plotRowPacked_eq_plotRow (p : Plot) : plotRowPacked clip r x0 b p = plotRow clip r x0 b p := by
  have hrow : (rowCells clip r x0 b).Nodup := nodup_rowCells clip r x0 b
  rw [plotRow_eq_plotCells]
  unfold plotRowPacked
  split
  · next h =>
    rw [plotPart_eq_plotCells]
    exact plotCells_congr (nodup_partCells _ _ _) hrow (mem_rowCells_of_one_part h) p
  · next h =>
    rw [plotPart_eq_plotCells, plotPart_eq_plotCells, ← plotCells_append]
    have hparts := List.nodup_append'.mpr ⟨nodup_partCells r (Fin.ofNat 8 (x0.val / 8)) (b >>> (x0.val % 8)),
      nodup_partCells _ _ (b <<< (8 - x0.val % 8)), fun _ => not_mem_partCells_of_ne startByte_ne_next⟩
    exact plotCells_congr hparts hrow (mem_rowCells_of_two_parts h) p

end

/-- Settles O45: the two plots agree row by row. -/
theorem bytePlotIsPixelPlot : Obligations.BytePlotIsPixelPlot := by
  intro clip fb vx vy bytes
  have hrows (i : Nat) (p : Plot) : plotRowsPacked clip (startColumn vx) (startRow vy) i p bytes =
      plotRows clip (startColumn vx) (startRow vy) i p bytes := by
    induction bytes generalizing i p with
    | nil => rfl
    | cons b bs ih => rw [plotRowsPacked, plotRows, plotRowPacked_eq_plotRow, ih]
  exact hrows 0 _

end Sys2Proof.Machine
end
